-- ==== Sys2Proof/Word.lean ====
section
/-! DEFINITION. The two word types of the LS-8 core and the 8-bit narrowing of `00_scope.md` R20. -/

namespace Sys2Proof

/-- A register, a memory cell, an immediate or an operand byte: 8 bits, always unsigned
(`00_scope.md` R10, R19). -/
abbrev Byte := BitVec 8

/-- The program counter: 9 bits, so that it can hold the 256 that a fixed increment produces
(`10_state.md` R36). -/
abbrev PcWord := BitVec 9

/-- `wrap8(v) = v mod 256` (`00_scope.md` R20): arithmetic is exact on naturals and narrowed here. -/
def wrap8 (v : Nat) : Byte := BitVec.ofNat 8 v

end Sys2Proof
end

