-- ==== Sys2Proof/Config.lean ====
section
/-! DEFINITION. The three named parameters of the core (`00_scope.md` R11 to R13). They are fixed for a run and no
instruction reads or writes them (`10_state.md` R44). -/

namespace Sys2Proof

/-- `UNSET_FLAG_POLICY` (`00_scope.md` R11): what JEQ and JNE do while the flag is UNSET. -/
inductive UnsetFlagPolicy
  | fault
  | notEqual
  deriving DecidableEq, Repr

/-- `LOOKAHEAD_OOB` (`00_scope.md` R13): what an unused lookahead read above address 255 does. -/
inductive LookaheadOob
  | inert
  | fault
  deriving DecidableEq, Repr

/-- One choice of the parameters. -/
structure Config where
  /-- `UNSET_FLAG_POLICY`. -/
  unsetFlagPolicy : UnsetFlagPolicy
  /-- `EXT_ALU_OPCODES` (`00_scope.md` R12): whether the optional set is decoded. -/
  extAluOpcodes : Bool
  /-- `LOOKAHEAD_OOB`. -/
  lookaheadOob : LookaheadOob
  deriving DecidableEq, Repr

/-- The defaults the spec names: `fault`, `false`, `inert`. -/
def Config.default : Config :=
  { unsetFlagPolicy := .fault, extAluOpcodes := false, lookaheadOob := .inert }

end Sys2Proof
end

