-- ==== Sys2Proof/Syntax.lean ====
section
/-! DEFINITION. The instructions: one constructor per row of `opcode_table.json`. -/

namespace Sys2Proof

/-- An LS-8 instruction with its operand bytes as fetched (`30_encoding.md` R81). A register operand is kept as the
whole byte: a byte of 8 to 255 is a valid encoding, and executing it raises OutOfBounds (`30_encoding.md` R91). -/
inductive Instr
  | hlt
  | ldi (a imm : Byte)
  | prn (a : Byte)
  | add (a b : Byte)
  | mul (a b : Byte)
  | push (a : Byte)
  | pop (a : Byte)
  | call (a : Byte)
  | ret
  | cmp (a b : Byte)
  | jmp (a : Byte)
  | jeq (a : Byte)
  | jne (a : Byte)
  | and (a b : Byte)
  | or (a b : Byte)
  | xor (a b : Byte)
  | not (a : Byte)
  | shl (a b : Byte)
  | shr (a b : Byte)
  | mod (a b : Byte)
  deriving DecidableEq, Repr

end Sys2Proof
end

