-- ==== Sys2Proof/WellFormed.lean ====
section
/-! DEFINITION. Which instructions name only registers that exist (`30_encoding.md` R83, R91). -/

namespace Sys2Proof

/-- The operand bytes an instruction's format names as registers, in the order they are checked: `a` before `b`
(the table of `40_fetch_decode.md` R109). -/
def Instr.regOperands : Instr → List Byte
  | .hlt | .ret => []
  | .ldi a _ | .prn a | .push a | .pop a | .call a | .jmp a | .jeq a | .jne a | .not a => [a]
  | .add a b | .mul a b | .cmp a b | .and a b | .or a b | .xor a b | .shl a b | .shr a b | .mod a b => [a, b]

/-- Every register operand is in 0 to 7. -/
def Instr.wellFormed (i : Instr) : Bool :=
  i.regOperands.all fun v => decide (v.toNat ≤ 7)

end Sys2Proof
end

