-- ==== Sys2Proof/Decode.lean ====
section
/-! DEFINITION. The opcode map, the decoder (total on any bytes, rejecting by name) and the encoder
(`30_encoding.md`). The opcode byte values are the spec's decision D14, supplied from general knowledge (log entry 3);
`Mnemonic.row` is the one place they stand. -/

namespace Sys2Proof

/-- The four formats of `30_encoding.md` R81. -/
inductive Format
  | n
  | r
  | rr
  | ri
  deriving DecidableEq, Repr

/-- The instruction length a format gives: one opcode byte and the operand bytes (`30_encoding.md` R80). -/
def Format.length : Format → Nat
  | .n => 1
  | .r => 2
  | .rr | .ri => 3

/-- The names of the opcode map's rows (`30_encoding.md` R85, R86). -/
inductive Mnemonic
  | hlt | ldi | prn | add | mul | push | pop | call | ret | cmp | jmp | jeq | jne
  | and | or | xor | not | shl | shr | mod
  deriving DecidableEq, Repr

/-- One row of the opcode map. -/
structure OpcodeRow where
  opcode : Byte
  format : Format
  /-- Whether the row belongs to the optional set, decoded only when `EXT_ALU_OPCODES` is true
  (`00_scope.md` R12). -/
  optional : Bool
  deriving DecidableEq, Repr

/-- The opcode map of `30_encoding.md` R85 (the base set) and R86 (the optional set). -/
def Mnemonic.row : Mnemonic → OpcodeRow
  | .hlt  => ⟨0x01, .n,  false⟩
  | .ldi  => ⟨0x82, .ri, false⟩
  | .prn  => ⟨0x47, .r,  false⟩
  | .add  => ⟨0xA0, .rr, false⟩
  | .mul  => ⟨0xA2, .rr, false⟩
  | .push => ⟨0x45, .r,  false⟩
  | .pop  => ⟨0x46, .r,  false⟩
  | .call => ⟨0x50, .r,  false⟩
  | .ret  => ⟨0x11, .n,  false⟩
  | .cmp  => ⟨0xA7, .rr, false⟩
  | .jmp  => ⟨0x54, .r,  false⟩
  | .jeq  => ⟨0x55, .r,  false⟩
  | .jne  => ⟨0x56, .r,  false⟩
  | .and  => ⟨0xA8, .rr, true⟩
  | .or   => ⟨0xAA, .rr, true⟩
  | .xor  => ⟨0xAB, .rr, true⟩
  | .not  => ⟨0x69, .r,  true⟩
  | .shl  => ⟨0xAC, .rr, true⟩
  | .shr  => ⟨0xAD, .rr, true⟩
  | .mod  => ⟨0xA4, .rr, true⟩

/-- Every row's name once, in the map's order. -/
def Mnemonic.all : List Mnemonic :=
  [.hlt, .ldi, .prn, .add, .mul, .push, .pop, .call, .ret, .cmp, .jmp, .jeq, .jne,
   .and, .or, .xor, .not, .shl, .shr, .mod]

/-- The dispatch lookup (`30_encoding.md` R87; `40_fetch_decode.md` R105): the whole byte is matched, and the optional
rows take part only when `ext` is true. -/
def Mnemonic.ofOpcode (ext : Bool) (op : Byte) : Option Mnemonic :=
  Mnemonic.all.find? fun m => m.row.opcode == op && (ext || !m.row.optional)

/-- Why bytes do not decode. -/
inductive DecodeError
  /-- The opcode byte has no row (`30_encoding.md` R89). -/
  | unknownOpcode (op : Byte)
  /-- A byte the instruction consumes is missing; `offset` is the lowest missing one, counted from the opcode byte
  (`40_fetch_decode.md` R104). -/
  | truncated (offset : Nat)
  deriving DecidableEq, Repr

/-- An instruction of one operand byte, from the bytes after its opcode. -/
def takeOne (mk : Byte → Instr) : List Byte → Except DecodeError (Instr × List Byte)
  | [] => .error (.truncated 1)
  | a :: rest => .ok (mk a, rest)

/-- An instruction of two operand bytes, from the bytes after its opcode. -/
def takeTwo (mk : Byte → Byte → Instr) : List Byte → Except DecodeError (Instr × List Byte)
  | [] => .error (.truncated 1)
  | [_] => .error (.truncated 2)
  | a :: b :: rest => .ok (mk a b, rest)

/-- The instruction a row names, from the bytes after its opcode: operand_a is the next byte, operand_b the one after it
(`30_encoding.md` R81). -/
def Mnemonic.parse : Mnemonic → List Byte → Except DecodeError (Instr × List Byte)
  | .hlt, rest => .ok (.hlt, rest)
  | .ldi, rest => takeTwo .ldi rest
  | .prn, rest => takeOne .prn rest
  | .add, rest => takeTwo .add rest
  | .mul, rest => takeTwo .mul rest
  | .push, rest => takeOne .push rest
  | .pop, rest => takeOne .pop rest
  | .call, rest => takeOne .call rest
  | .ret, rest => .ok (.ret, rest)
  | .cmp, rest => takeTwo .cmp rest
  | .jmp, rest => takeOne .jmp rest
  | .jeq, rest => takeOne .jeq rest
  | .jne, rest => takeOne .jne rest
  | .and, rest => takeTwo .and rest
  | .or, rest => takeTwo .or rest
  | .xor, rest => takeTwo .xor rest
  | .not, rest => takeOne .not rest
  | .shl, rest => takeTwo .shl rest
  | .shr, rest => takeTwo .shr rest
  | .mod, rest => takeTwo .mod rest

/-- The decoder: the instruction at the front of a byte list and the bytes after it. `ext` is `EXT_ALU_OPCODES`. -/
def decode (ext : Bool) : List Byte → Except DecodeError (Instr × List Byte)
  | [] => .error (.truncated 0)
  | op :: rest =>
    match Mnemonic.ofOpcode ext op with
    | none => .error (.unknownOpcode op)
    | some m => m.parse rest

/-- The row an instruction belongs to. -/
def Instr.mnemonic : Instr → Mnemonic
  | .hlt => .hlt
  | .ldi _ _ => .ldi
  | .prn _ => .prn
  | .add _ _ => .add
  | .mul _ _ => .mul
  | .push _ => .push
  | .pop _ => .pop
  | .call _ => .call
  | .ret => .ret
  | .cmp _ _ => .cmp
  | .jmp _ => .jmp
  | .jeq _ => .jeq
  | .jne _ => .jne
  | .and _ _ => .and
  | .or _ _ => .or
  | .xor _ _ => .xor
  | .not _ => .not
  | .shl _ _ => .shl
  | .shr _ _ => .shr
  | .mod _ _ => .mod

/-- The operand bytes in memory order (`30_encoding.md` R81). -/
def Instr.operandBytes : Instr → List Byte
  | .hlt | .ret => []
  | .prn a | .push a | .pop a | .call a | .jmp a | .jeq a | .jne a | .not a => [a]
  | .ldi a b | .add a b | .mul a b | .cmp a b | .and a b | .or a b | .xor a b | .shl a b | .shr a b | .mod a b => [a, b]

/-- The opcode byte of an instruction. -/
def Instr.opcode (i : Instr) : Byte := i.mnemonic.row.opcode

/-- The encoded length in bytes (`30_encoding.md` R80, R88). -/
def Instr.length (i : Instr) : Nat := i.mnemonic.row.format.length

/-- Whether an instruction belongs to the optional set (`30_encoding.md` R86). -/
def Instr.optional (i : Instr) : Bool := i.mnemonic.row.optional

/-- The encoder: the bytes of an instruction from its lowest address up. -/
def encode (i : Instr) : List Byte := i.opcode :: i.operandBytes

/-- The three bytes of a table word of `nbits` bits: bit 0 is the least significant bit of the first byte, and every
bit above `nbits` is 0. -/
def tableBytes (nbits w : Nat) : List Byte :=
  let v := w % 2 ^ nbits
  [BitVec.ofNat 8 v, BitVec.ofNat 8 (v / 256), BitVec.ofNat 8 (v / 65536)]

/-- What the decoder reads from a word of `opcode_table.json`. The table lists the optional set too, so it is read with
`EXT_ALU_OPCODES` true (log entry 11). -/
def decodeTableWord (nbits w : Nat) : Option Instr :=
  match decode true (tableBytes nbits w) with
  | .ok (i, _) => some i
  | .error _ => none

end Sys2Proof
end

