-- ==== Sys2Proof/Machine/State.lean ====
section
/-! DEFINITION. The whole state of the core (`10_state.md` R30 to R46), its reset value, and the reasons a step can
answer no next state. -/

namespace Sys2Proof.Machine

/-- The comparison flag (`10_state.md` R39): an enumeration with no visible bits. -/
inductive Flag
  | unset
  | equal
  | less
  | greater
  deriving DecidableEq, Repr

/-- The run state (`10_state.md` R40). -/
inductive Run
  | running
  | halted
  | faulted
  deriving DecidableEq, Repr

/-- Why a run stopped (`10_state.md` R41; `60_exceptions.md` R210). -/
inductive StopReason
  | hlt
  | unknownOpcode
  | outOfBounds
  | divideOrModuloByZero
  | flagUnset
  | unsupportedAluOperation
  deriving DecidableEq, Repr

/-- Which check an OutOfBounds failed (`60_exceptions.md` R211). -/
inductive OobKind
  | fetch
  | operand
  | lookahead
  | register
  | returnAddress
  deriving DecidableEq, Repr

/-- The stop record (`10_state.md` R41). -/
structure StopRecord where
  reason : StopReason
  /-- `pc0` of the instruction that stopped the run; for a fetch fault, the out-of-range pc. -/
  pc : PcWord
  /-- The fetched opcode byte; none for a fetch fault. -/
  opcode : Option Byte
  /-- Which check failed, for OutOfBounds; otherwise none. -/
  kind : Option OobKind
  /-- The offending address or register index, for OutOfBounds; otherwise none. -/
  value : Option Nat
  deriving DecidableEq, Repr

/-- Memory as the list of the cells that differ from the reset contents, in strictly rising addresses. -/
abbrev Memory := List Host.Cell

/-- What an unlisted address reads as: the reset contents of Memory (`70_reset_and_hazards.md` R241). -/
def Memory.resetByte : Byte := 0

/-- The canonical form: addresses strictly rising and within 0 to 255, and no entry equal to what an unlisted address
reads as. -/
abbrev Memory.wf (m : Memory) : Prop :=
  m.Pairwise (fun c d => c.1 < d.1) ∧ ∀ c ∈ m, c.1 ≤ 255 ∧ c.2 ≠ Memory.resetByte

/-- The complete architectural state (`10_state.md` R44), and beside it the parameters the run is under. -/
structure State where
  /-- `x[0]` to `x[7]`; `x[7]` is SP (`10_state.md` R30, R32). -/
  x : Vector Byte 8
  /-- The address of the next instruction to fetch; while an instruction executes, its own address `pc0`
  (`10_state.md` R36). -/
  pc : PcWord
  /-- The comparison flag (`10_state.md` R39). -/
  flag : Flag
  /-- The run state (`10_state.md` R40). -/
  run : Run
  /-- Empty while RUNNING, the stop record afterwards (`10_state.md` R41). -/
  stop : Option StopRecord
  /-- Every value the output port has emitted, oldest first (`10_state.md` R42). -/
  out : List Byte
  /-- The 256 cells (`10_state.md` R43). -/
  mem : Memory
  /-- The model's own field: the parameters, which no step changes (log entry 1). -/
  cfg : Config
  deriving DecidableEq, Repr

/-- The reasons `step` answers no next state. The core's own fatal errors are NOT among them: those are next states in
FAULTED (`60_exceptions.md` R212). -/
inductive Fault
  /-- Raised by `step` alone, in HALTED or FAULTED: a terminal state has no step (`40_fetch_decode.md` R114).
  Safe: the model stops where the core takes no step (log entry 2). -/
  | terminalState
  deriving DecidableEq, Repr

/-- The reasons an instruction has no meaning. -/
inductive Refusal
  /-- An instruction without a meaning in `exec`, by its mnemonic; no arm uses it. Safe: the model stops. -/
  | notModelled (mnemonic : String)
  deriving DecidableEq, Repr

/-- The state right after reset is released (`10_state.md` R46), under the default parameters, with no program image:
an image comes from the host, through `boot` (`70_reset_and_hazards.md` R241). -/
def State.reset : State where
  x := #v[0x00, 0x00, 0x00, 0x00, 0x00, 0x00, 0x00, 0xF4]
  pc := 0x000
  flag := .unset
  run := .running
  stop := none
  out := []
  mem := []
  cfg := Config.default

end Sys2Proof.Machine
end

