-- ==== Sys2Proof/Machine/Ops.lean ====
section
/-! DEFINITION. The named operations over memory, registers, the program counter, the output port and the run state.
Entering a terminal state is the only thing an exceptional condition does (`60_exceptions.md` R218): `State.raise` is
that one shared operation, and there is no return from it (`60_exceptions.md` R219). -/

namespace Sys2Proof.Machine

/-- What a meaning or a step answers. -/
abbrev Result := Host.Outcome State Fault Refusal

/-! ## Memory (`20_memory.md`) -/

/-- The byte listed for an address, or the reset contents. -/
def Memory.lookup : Memory → Nat → Byte
  | [], _ => Memory.resetByte
  | (k, v) :: rest, a => if a = k then v else Memory.lookup rest a

/-- The memory with one cell set, in canonical form: storing the reset contents removes the entry. -/
def Memory.store : Memory → Nat → Byte → Memory
  | [], a, b => if b = Memory.resetByte then [] else [(a, b)]
  | (k, v) :: rest, a, b =>
    if a < k then
      if b = Memory.resetByte then (k, v) :: rest else (a, b) :: (k, v) :: rest
    else if a = k then
      if b = Memory.resetByte then rest else (a, b) :: rest
    else (k, v) :: Memory.store rest a b

/-- `MemRead(a, 1)` of the memory port (`00_scope.md` R14): a byte address is always in range. -/
def Memory.read (m : Memory) (a : Byte) : Byte := m.lookup a.toNat

/-- `MemWrite(a, 1, v)` of the memory port (`00_scope.md` R14). -/
def Memory.write (m : Memory) (a v : Byte) : Memory := m.store a.toNat v

/-- A read at an address that may lie outside Memory: none above 255, never a wrapped address (`20_memory.md` R63). -/
def Memory.readAt (m : Memory) (t : Nat) : Option Byte :=
  if t ≤ 255 then some (m.read (BitVec.ofNat 8 t)) else none

/-- The consecutive bytes of an image from address `k` on (`70_reset_and_hazards.md` R241). -/
def Memory.load : Nat → List Byte → Memory → Memory
  | _, [], m => m
  | k, b :: bs, m => Memory.load (k + 1) bs (m.store k b)

/-- The state with one memory cell written. -/
def State.writeMem (s : State) (a v : Byte) : State := { s with mem := s.mem.write a v }

/-! ## Registers (`10_state.md` R30 to R35) -/

/-- `x[r]`. No register is hardwired or banked (`10_state.md` R31). -/
def State.reg (s : State) (r : Fin 8) : Byte := s.x[r]

/-- `x[r] <- v`. -/
def State.setReg (s : State) (r : Fin 8) (v : Byte) : State := { s with x := s.x.set r v }

/-- The register that holds SP (`00_scope.md` R10). -/
def spIndex : Fin 8 := 7

/-- SP is another name for `x[7]` (`10_state.md` R32). -/
def State.sp (s : State) : Byte := s.reg spIndex

/-- Writing SP writes `x[7]` (`10_state.md` R32). -/
def State.setSp (s : State) (v : Byte) : State := s.setReg spIndex v

/-! ## Stack pointer steps (`43_stack_call.md` R184) -/

/-- `wrap8(SP - 1)`; 255 is added because naturals do not go below 0. -/
def spDown (sp : Byte) : Byte := wrap8 (sp.toNat + 255)

/-- `wrap8(SP + 1)`. -/
def spUp (sp : Byte) : Byte := wrap8 (sp.toNat + 1)

/-- The push of one byte: SP down, then the store at the new SP. The value may depend on the state after the decrement,
which is where PUSH reads its operand register (`43_stack_call.md` R180). -/
def State.pushByte (s : State) (value : State → Byte) : State :=
  let s1 := s.setSp (spDown s.sp)
  s1.writeMem s1.sp (value s1)

/-! ## Program counter (`40_fetch_decode.md` R110) -/

/-- The fixed increment; an instruction that executes starts at 255 or below, so nine bits hold the result
(log entry 9). -/
def State.advance (s : State) (n : Nat) : State := { s with pc := s.pc + BitVec.ofNat 9 n }

/-- The assignment of a jump target, an absolute byte address (`44_branch.md` R203). -/
def State.jump (s : State) (target : Byte) : State := { s with pc := target.setWidth 9 }

/-! ## Output port (`00_scope.md` R15) -/

/-- `emit(v)`. -/
def State.emit (s : State) (v : Byte) : State := { s with out := s.out ++ [v] }

/-! ## Entering a terminal state -/

/-- What `raise` names (`00_scope.md` R23): the reason, and for OutOfBounds the failed check and the offending value. -/
structure Condition where
  reason : StopReason
  kind : Option OobKind
  value : Option Nat
  deriving DecidableEq, Repr

/-- `OutOfBounds(kind, value)` (`60_exceptions.md` R211). -/
def Condition.outOfBounds (kind : OobKind) (value : Nat) : Condition :=
  { reason := .outOfBounds, kind := some kind, value := some value }

/-- A condition that carries neither a check nor a value (`60_exceptions.md` R213, R214). -/
def Condition.plain (reason : StopReason) : Condition :=
  { reason := reason, kind := none, value := none }

/-- The effect of a fault (`60_exceptions.md` R212): FAULTED with a stop record, and nothing else written. `opcode` is the
fetched opcode byte, none for a fetch fault. -/
def State.raise (s : State) (opcode : Option Byte) (c : Condition) : State :=
  { s with run := .faulted, stop := some { reason := c.reason, pc := s.pc, opcode := opcode, kind := c.kind, value := c.value } }

/-- `halt(reason)` (`00_scope.md` R23): HALTED with a stop record, and nothing else written
(`40_fetch_decode.md` R106, R112). Kind none is R41's; value none is inferred (log entry 8, DEDUCED). -/
def State.halt (s : State) (opcode : Byte) (reason : StopReason) : State :=
  { s with run := .halted, stop := some { reason := reason, pc := s.pc, opcode := some opcode, kind := none, value := none } }

end Sys2Proof.Machine
end

