-- ==== Sys2Proof/Machine/Flags.lean ====
section
/-! DEFINITION. The flag CMP computes and what the conditional jumps read from it. No other instruction touches the flag
(`10_state.md` R39), and there is no carry, overflow, zero or sign flag (`41_alu.md` R143). -/

namespace Sys2Proof.Machine

/-- The unsigned comparison of `41_alu.md` R142. -/
def cmpFlag (av bv : Byte) : Flag :=
  if av.toNat > bv.toNat then .greater
  else if av.toNat < bv.toNat then .less
  else .equal

/-- The flag as JEQ and JNE read it: whether it is EQUAL, or the FlagUnset condition, or under `not_equal` an UNSET
flag read as not EQUAL (`44_branch.md` R204). -/
def flagIsEqual (policy : UnsetFlagPolicy) : Flag → Except Condition Bool
  | .equal => .ok true
  | .less | .greater => .ok false
  | .unset =>
    match policy with
    | .fault => .error (.plain .flagUnset)
    | .notEqual => .ok false

end Sys2Proof.Machine
end

