-- ==== Sys2Proof/Machine/Operands.lean ====
section
/-! DEFINITION. The register operand forms. An immediate needs no form: it is its byte (`30_encoding.md` R83). -/

namespace Sys2Proof.Machine

/-- `regidx(v)` (`40_fetch_decode.md` R108): never reduced modulo 8. -/
def regidx (v : Byte) : Except Condition (Fin 8) :=
  if h : v.toNat ≤ 7 then .ok ⟨v.toNat, by omega⟩ else .error (.outOfBounds .register v.toNat)

/-- One register operand: the check comes before the handler makes any write (`40_fetch_decode.md` R109).
`op` is the fetched opcode byte, for the stop record. -/
def withReg (op a : Byte) (s : State) (handler : Fin 8 → Result) : Result :=
  match regidx a with
  | .error c => .next (s.raise (some op) c)
  | .ok ra => handler ra

/-- Two register operands, `a` checked before `b` (`40_fetch_decode.md` R109). -/
def withRegs (op a b : Byte) (s : State) (handler : Fin 8 → Fin 8 → Result) : Result :=
  withReg op a s fun ra => withReg op b s fun rb => handler ra rb

end Sys2Proof.Machine
end

