-- ==== Sys2Proof/Machine/Alu.lean ====
section
/-! DEFINITION. The ALU as a pure function and the ALU instructions (`41_alu.md`). -/

namespace Sys2Proof.Machine

/-- The ALU's operation select (`41_alu.md` R131). -/
inductive AluOp
  | add | mul | and | or | xor | not | shl | shr | mod | cmp
  /-- Any select outside the closed set; no decoder row presents one (`60_exceptions.md` R215). -/
  | outside (select : Nat)
  deriving DecidableEq, Repr

/-- What the ALU produces: `result` and `flag_out`, each a value or none (`41_alu.md` R130). -/
structure AluOut where
  result : Option Byte
  flag : Option Flag
  deriving DecidableEq, Repr

/-- A result and no flag: every operation but CMP (`41_alu.md` R143). -/
def AluOut.value (v : Byte) : AluOut := { result := some v, flag := none }

/-- The ALU (`41_alu.md` R130 to R142): exact natural arithmetic narrowed by `wrap8`. -/
def aluApply (sel : AluOp) (av bv : Byte) : Except Condition AluOut :=
  match sel with
  | .add => .ok (.value (wrap8 (av.toNat + bv.toNat)))
  | .mul => .ok (.value (wrap8 (av.toNat * bv.toNat)))
  | .and => .ok (.value (av &&& bv))
  | .or => .ok (.value (av ||| bv))
  | .xor => .ok (.value (av ^^^ bv))
  | .not => .ok (.value (wrap8 (255 - av.toNat)))
  | .shl => .ok (.value (wrap8 (av.toNat * 2 ^ bv.toNat)))
  | .shr => .ok (.value (wrap8 (av.toNat / 2 ^ bv.toNat)))
  | .mod =>
    if bv.toNat = 0 then .error (.plain .divideOrModuloByZero)
    else .ok (.value (wrap8 (av.toNat % bv.toNat)))
  | .cmp => .ok { result := none, flag := some (cmpFlag av bv) }
  | .outside _ => .error (.plain .unsupportedAluOperation)

/-- The handler's write of the ALU's outputs: the result to `x[ra]`, the flag to `flag` (`41_alu.md` R130). -/
def State.writeAlu (s : State) (ra : Fin 8) (o : AluOut) : State :=
  let s1 := match o.result with
    | some v => s.setReg ra v
    | none => s
  match o.flag with
  | some f => { s1 with flag := f }
  | none => s1

/-- The end of an ALU instruction of `len` bytes: a condition of the ALU stops the run with nothing written, an output is
written and `pc` advances. -/
def aluFinish (op : Byte) (len : Nat) (ra : Fin 8) (o : Except Condition AluOut) (s : State) : Result :=
  match o with
  | .error c => .next (s.raise (some op) c)
  | .ok out => .next ((s.writeAlu ra out).advance len)

/-- The two-register form `reg_a <- op(reg_a, reg_b)`. -/
def aluTwo (sel : AluOp) (op a b : Byte) (s : State) : Result :=
  withRegs op a b s fun ra rb => aluFinish op 3 ra (aluApply sel (s.reg ra) (s.reg rb)) s

/-- The one-register form; the ALU ignores its second input (`41_alu.md` R138). -/
def aluOne (sel : AluOp) (op a : Byte) (s : State) : Result :=
  withReg op a s fun ra => aluFinish op 2 ra (aluApply sel (s.reg ra) 0) s

/-- ADD reg_a, reg_b (`41_alu.md` R145). -/
def execAdd (a b : Byte) (s : State) : Result := aluTwo .add (Instr.add a b).opcode a b s

/-- MUL reg_a, reg_b (`41_alu.md` R146). -/
def execMul (a b : Byte) (s : State) : Result := aluTwo .mul (Instr.mul a b).opcode a b s

/-- CMP reg_a, reg_b (`41_alu.md` R147). -/
def execCmp (a b : Byte) (s : State) : Result := aluTwo .cmp (Instr.cmp a b).opcode a b s

/-- AND reg_a, reg_b (`41_alu.md` R150). -/
def execAnd (a b : Byte) (s : State) : Result := aluTwo .and (Instr.and a b).opcode a b s

/-- OR reg_a, reg_b (`41_alu.md` R151). -/
def execOr (a b : Byte) (s : State) : Result := aluTwo .or (Instr.or a b).opcode a b s

/-- XOR reg_a, reg_b (`41_alu.md` R152). -/
def execXor (a b : Byte) (s : State) : Result := aluTwo .xor (Instr.xor a b).opcode a b s

/-- NOT reg (`41_alu.md` R153). -/
def execNot (a : Byte) (s : State) : Result := aluOne .not (Instr.not a).opcode a s

/-- SHL reg_a, reg_b (`41_alu.md` R154). -/
def execShl (a b : Byte) (s : State) : Result := aluTwo .shl (Instr.shl a b).opcode a b s

/-- SHR reg_a, reg_b (`41_alu.md` R155). -/
def execShr (a b : Byte) (s : State) : Result := aluTwo .shr (Instr.shr a b).opcode a b s

/-- MOD reg_a, reg_b (`41_alu.md` R156). -/
def execMod (a b : Byte) (s : State) : Result := aluTwo .mod (Instr.mod a b).opcode a b s

end Sys2Proof.Machine
end

