-- ==== Sys2Proof/Machine/Branch.lean ====
section
/-! DEFINITION. Jumps and conditional branches (`44_branch.md`). -/

namespace Sys2Proof.Machine

/-- JMP reg (`44_branch.md` R200). -/
def execJmp (a : Byte) (s : State) : Result :=
  withReg (Instr.jmp a).opcode a s fun ra => .next (s.jump (s.reg ra))

/-- A conditional jump: `taken` says on which reading of the flag it jumps; otherwise `pc` advances by 2
(`44_branch.md` R203). -/
def condJump (taken : Bool → Bool) (op a : Byte) (s : State) : Result :=
  withReg op a s fun ra =>
    match flagIsEqual s.cfg.unsetFlagPolicy s.flag with
    | .error c => .next (s.raise (some op) c)
    | .ok eq => .next (if taken eq then s.jump (s.reg ra) else s.advance 2)

/-- JEQ reg (`44_branch.md` R201). -/
def execJeq (a : Byte) (s : State) : Result := condJump (fun eq => eq) (Instr.jeq a).opcode a s

/-- JNE reg (`44_branch.md` R202). -/
def execJne (a : Byte) (s : State) : Result := condJump (fun eq => !eq) (Instr.jne a).opcode a s

end Sys2Proof.Machine
end

