-- ==== Sys2Proof/Machine/Halt.lean ====
section
/-! DEFINITION. HLT, the instruction the execution loop handles itself (`40_fetch_decode.md` section 5). -/

namespace Sys2Proof.Machine

/-- HLT (`40_fetch_decode.md` R112): `pc` keeps `pc0`. -/
def execHlt (s : State) : Result := .next (s.halt Instr.hlt.opcode .hlt)

end Sys2Proof.Machine
end

