-- ==== Sys2Proof/Machine/LoadOutput.lean ====
section
/-! DEFINITION. Load-immediate and output (`42_load_output.md`). -/

namespace Sys2Proof.Machine

/-- LDI reg, imm (`42_load_output.md` R170): the immediate is the whole byte and is never checked. -/
def execLdi (a imm : Byte) (s : State) : Result :=
  withReg (Instr.ldi a imm).opcode a s fun ra => .next ((s.setReg ra imm).advance 3)

/-- PRN reg (`42_load_output.md` R171): one output event. -/
def execPrn (a : Byte) (s : State) : Result :=
  withReg (Instr.prn a).opcode a s fun ra => .next ((s.emit (s.reg ra)).advance 2)

end Sys2Proof.Machine
end

