-- ==== Sys2Proof/Machine/Stack.lean ====
section
/-! DEFINITION. Stack, call and return (`43_stack_call.md`). The lines run in the order the rules write them; the order
shows only when the register operand is 7 (the spec's decision D12). -/

namespace Sys2Proof.Machine

/-- PUSH reg (`43_stack_call.md` R180): `x[ra]` is read after the decrement. -/
def execPush (a : Byte) (s : State) : Result :=
  withReg (Instr.push a).opcode a s fun ra => .next ((s.pushByte fun s1 => s1.reg ra).advance 2)

/-- POP reg (`43_stack_call.md` R181): the increment uses SP as just written. -/
def execPop (a : Byte) (s : State) : Result :=
  withReg (Instr.pop a).opcode a s fun ra =>
    let s1 := s.setReg ra (s.mem.read s.sp)
    .next ((s1.setSp (spUp s1.sp)).advance 2)

/-- CALL reg (`43_stack_call.md` R182): a return address above 255 fits no cell and is not wrapped; the target is read
after the push. -/
def execCall (a : Byte) (s : State) : Result :=
  withReg (Instr.call a).opcode a s fun ra =>
    let ret := s.pc.toNat + 2
    if ret > 255 then .next (s.raise (some (Instr.call a).opcode) (.outOfBounds .returnAddress ret))
    else
      let s1 := s.pushByte fun _ => BitVec.ofNat 8 ret
      .next (s1.jump (s1.reg ra))

/-- RET (`43_stack_call.md` R183). -/
def execRet (s : State) : Result :=
  let s1 := s.jump (s.mem.read s.sp)
  .next (s1.setSp (spUp s1.sp))

end Sys2Proof.Machine
end

