-- ==== Sys2Proof/Machine/Fetch.lean ====
section
/-! DEFINITION. The part of a step before the handler (`40_fetch_decode.md` R101 to R106, in the order of R113). -/

namespace Sys2Proof.Machine

/-- `look(t)` (`40_fetch_decode.md` R102, R103): the byte at `t`; above 255, ABSENT (`none`) under `inert` and an
OutOfBounds under `fault`. -/
def look (s : State) (t : Nat) : Except Condition (Option Byte) :=
  match s.mem.readAt t with
  | some b => .ok (some b)
  | none =>
    match s.cfg.lookaheadOob with
    | .inert => .ok none
    | .fault => .error (.outOfBounds .lookahead t)

/-- The three snapshots of one step (`00_scope.md` R24). -/
structure Fetched where
  op : Byte
  a : Option Byte
  b : Option Byte
  deriving DecidableEq, Repr

/-- The fetched bytes in memory order, without the ABSENT ones. -/
def Fetched.bytes (f : Fetched) : List Byte := f.op :: (f.a.toList ++ f.b.toList)

/-- The two eager lookahead reads after the opcode, the lower address first (`40_fetch_decode.md` R102). -/
def lookahead (s : State) (op : Byte) : Except Condition Fetched :=
  match look s (s.pc.toNat + 1) with
  | .error c => .error c
  | .ok a =>
    match look s (s.pc.toNat + 2) with
    | .error c => .error c
    | .ok b => .ok { op := op, a := a, b := b }

/-- The fetch: the range check, the opcode, then both lookahead bytes (`40_fetch_decode.md` R101, R102). An error is the
state the core stops in; a fetch fault records no opcode (`60_exceptions.md` R212). -/
def fetch (s : State) : Except State Fetched :=
  match s.mem.readAt s.pc.toNat with
  | none => .error (s.raise none (.outOfBounds .fetch s.pc.toNat))
  | some op =>
    match lookahead s op with
    | .error c => .error (s.raise (some op) c)
    | .ok f => .ok f

/-- Decode after fetch: an unknown opcode halts (`40_fetch_decode.md` R106), a consumed byte above 255 faults
(`40_fetch_decode.md` R104), and otherwise there is an instruction to run. -/
def decodeFetched (s : State) (f : Fetched) : Except State Instr :=
  match decode s.cfg.extAluOpcodes f.bytes with
  | .error (.unknownOpcode op) => .error (s.halt op .unknownOpcode)
  | .error (.truncated k) => .error (s.raise (some f.op) (.outOfBounds .operand (s.pc.toNat + k)))
  | .ok (i, _) => .ok i

/-- Fetch and decode: the instruction at `pc`, or the terminal state the core enters instead. -/
def fetchInstr (s : State) : Except State Instr :=
  match fetch s with
  | .error t => .error t
  | .ok f => decodeFetched s f

/-- The bytes of `bs` that fit below 256, stored from address `k` on. -/
def State.place (s : State) (k : Nat) (bs : List Byte) : State :=
  { s with mem := Memory.load k (bs.take (256 - k)) s.mem }

end Sys2Proof.Machine
end

