-- ==== Sys2Proof/Machine/Step.lean ====
section
/-! DEFINITION. One step (`40_fetch_decode.md` R113) and where a word is placed so that the next step runs it. -/

namespace Sys2Proof.Machine

/-- One step: while RUNNING, fetch, decode and run one instruction; a terminal state has no step
(`40_fetch_decode.md` R100, R114; log entry 2). -/
def step (s : State) : Host.Outcome State Fault Refusal :=
  match s.run with
  | .running =>
    match fetchInstr s with
    | .error t => .next t
    | .ok i => exec i s
  | .halted | .faulted => .fault .terminalState

/-- The bytes of a table word stored at `pc`, where the step fetches. A word of the optional set also needs
`EXT_ALU_OPCODES`, so that parameter is set for it and for no other word (log entry 11). -/
def State.withFetchWord (s : State) (nbits w : Nat) : State :=
  let t := s.place s.pc.toNat (tableBytes nbits w)
  match decodeTableWord nbits w with
  | some i => { t with cfg := { t.cfg with extAluOpcodes := t.cfg.extAluOpcodes || i.optional } }
  | none => t

end Sys2Proof.Machine
end

