-- ==== Sys2Proof/Machine/Boot.lean ====
section
/-! DEFINITION. Reset and the host's preload (`70_reset_and_hazards.md` R240 to R246). Both are the host's acts, outside
`step` (log entry 7). -/

namespace Sys2Proof.Machine

/-- Why the host does not release reset (`70_reset_and_hazards.md` R246). -/
inductive LoadFailure
  /-- There is no program (`60_exceptions.md` R227); the model counts an image of 0 bytes as none (log entry 13). -/
  | missingProgram
  /-- The image runs past the last cell; `address` is the first one out of range. -/
  | outOfBounds (address : Nat)
  deriving DecidableEq, Repr

/-- The state right after reset is released with a program image of 1 to 256 bytes in Memory from address 0
(`70_reset_and_hazards.md` R240, R241), or why reset is not released (R246). The host with no program is written as the empty
list, so a supplied image of 0 bytes is answered `missingProgram` too: the spec leaves that image open, and this is the
model's choice (log entry 13, DESIGN CHOICE). -/
def boot (cfg : Config) (image : List Byte) : Except LoadFailure State :=
  if image.length = 0 then .error .missingProgram
  else if image.length > 256 then .error (.outOfBounds 256)
  else .ok { State.reset with mem := Memory.load 0 image [], cfg := cfg }

/-- A reset of a core in any state, terminal or not: everything is re-initialized and nothing survives but the
parameters, which are no state of the core (`70_reset_and_hazards.md` R244, R245). -/
def State.resetBy (s : State) (image : List Byte) : Except LoadFailure State := boot s.cfg image

end Sys2Proof.Machine
end

