-- ==== Sys2Proof/Machine/Ports.lean ====
section
/-! DEFINITION. What the outside can read between two steps: the status port, the trace port and the observation at the
end of a run. The output port is the field `out`. -/

namespace Sys2Proof.Machine

/-- The code column of `60_exceptions.md` R210, the numbering of the status port. -/
def StopReason.code : StopReason → Nat
  | .hlt => 0
  | .unknownOpcode => 1
  | .outOfBounds => 2
  | .divideOrModuloByZero => 3
  | .flagUnset => 4
  | .unsupportedAluOperation => 5

/-- The status port (`00_scope.md` R16). -/
structure Status where
  run : Run
  /-- The reason's code, in a terminal state. -/
  code : Option Nat
  stop : Option StopRecord
  deriving DecidableEq, Repr

/-- The status port's reading of a state. -/
def State.status (s : State) : Status :=
  { run := s.run, code := s.stop.map fun r => r.reason.code, stop := s.stop }

/-- A snapshot of the trace port (`00_scope.md` R17). -/
structure Trace where
  pc : PcWord
  op : Byte
  a : Byte
  b : Byte
  x : Vector Byte 8
  deriving DecidableEq, Repr

/-- The trace port's reading of a state. `draw` is a free value for each address above 255, where the port may show
anything (`93_implementation_defined.md` I12; log entry 5); no step reads it. -/
def State.trace (draw : Nat → Byte) (s : State) : Trace :=
  let at_ (t : Nat) : Byte := (s.mem.readAt t).getD (draw t)
  { pc := s.pc, op := at_ s.pc.toNat, a := at_ (s.pc.toNat + 1), b := at_ (s.pc.toNat + 2), x := s.x }

/-- The observation at the end of a run (`70_reset_and_hazards.md` R254). -/
structure Observation where
  stop : Option StopRecord
  out : List Byte
  x : Vector Byte 8
  pc : PcWord
  flag : Flag
  mem : Memory
  deriving DecidableEq, Repr

/-- What a run leaves to observe. -/
def State.observe (s : State) : Observation :=
  { stop := s.stop, out := s.out, x := s.x, pc := s.pc, flag := s.flag, mem := s.mem }

end Sys2Proof.Machine
end

