-- ==== Sys2Proof/Safety.lean ====
section
/-! DEFINITION. What claims are stated in: the invariant every step keeps, terminal states and the end of a run. -/

namespace Sys2Proof.Machine

/-- The operand byte that names a register (`30_encoding.md` R83). -/
def regByte (r : Fin 8) : Byte := BitVec.ofNat 8 r.val

/-- Every byte of Memory reads as before. -/
abbrev KeepsMemory (s t : State) : Prop := ∀ a : Byte, t.mem.read a = s.mem.read a

/-- Every register but `r` is as before. -/
abbrev KeepsRegsBut (r : Fin 8) (s t : State) : Prop := ∀ q : Fin 8, q ≠ r → t.reg q = s.reg q

/-- Every register is as before. -/
abbrev KeepsRegs (s t : State) : Prop := ∀ q : Fin 8, t.reg q = s.reg q

/-- The run state, the stop record and the parameters are as before: the instruction neither stopped the run nor touched
the configuration. -/
abbrev KeepsRun (s t : State) : Prop := t.run = s.run ∧ t.stop = s.stop ∧ t.cfg = s.cfg

/-- The state a condition leaves (`60_exceptions.md` R212): only `run` and `stop` differ. -/
abbrev faultedWith (s : State) (reason : StopReason) (opcode : Option Byte) (kind : Option OobKind) (value : Option Nat) :
    State :=
  { s with run := .faulted, stop := some ⟨reason, s.pc, opcode, kind, value⟩ }

/-- HALTED or FAULTED (`10_state.md` R40). -/
def State.terminal (s : State) : Bool := s.run != .running

/-- The values `60_exceptions.md` R211 allows each kind of OutOfBounds to record. -/
def OobKind.admits : OobKind → Nat → Bool
  | .register, v => decide (8 ≤ v ∧ v ≤ 255)
  | .fetch, v | .operand, v | .lookahead, v | .returnAddress, v => v == 256

/-- A stop record agrees with the run state and the pc it stands beside (`10_state.md` R41; `60_exceptions.md` R210 to
R216): it records the kept pc, its class matches the run state, the opcode is missing exactly for a fetch fault, the kind
and value are there exactly for OutOfBounds, and UnsupportedALUOperation never occurs. Value none for HLT and UnknownOpcode
is the model's inference (log entry 8). -/
def StopRecord.sound (r : StopRecord) (run : Run) (pc : PcWord) : Bool :=
  r.pc == pc &&
  (decide (pc.toNat = 256) == (r.kind == some .fetch)) &&
  (r.opcode.isNone == (r.kind == some .fetch)) &&
  match r.reason with
  | .hlt => run == .halted && r.opcode == some 0x01 && r.kind.isNone && r.value.isNone
  | .unknownOpcode => run == .halted && r.kind.isNone && r.value.isNone
  | .outOfBounds =>
    run == .faulted &&
    match r.kind, r.value with
    | some k, some v => k.admits v
    | _, _ => false
  | .divideOrModuloByZero | .flagUnset => run == .faulted && r.kind.isNone && r.value.isNone
  | .unsupportedAluOperation => false

/-- `stop` is empty while RUNNING and holds a sound record in a terminal state (`10_state.md` R41). -/
def State.stopSound (s : State) : Bool :=
  match s.stop with
  | none => s.run == .running
  | some r => s.run != .running && r.sound s.run s.pc

/-- The invariant of the core: Memory in canonical form within 0 to 255 (the model's form, log entry 4), `pc` at most 256
(`40_fetch_decode.md` R101), and a sound stop record exactly when `10_state.md` R41 says. -/
abbrev State.Inv (s : State) : Prop := s.mem.wf ∧ s.pc.toNat ≤ 256 ∧ s.stopSound = true

/-- The first terminal state of a run within `fuel` steps (`70_reset_and_hazards.md` R254). None means that the fuel ran
out, which is not an end. -/
def endOfRun : Nat → State → Option State
  | 0, s => if s.terminal then some s else none
  | fuel + 1, s =>
    if s.terminal then some s
    else
      match step s with
      | .next t => endOfRun fuel t
      | .fault _ | .refused _ => none

end Sys2Proof.Machine
end

