-- ==== Sys2Proof/Certificates/Slice0/Obligations.lean ====
section
/-! DEFINITION. The statements for the provers. Each formalises rules of spec/ named in its docstring; an operand byte
`regByte r` names register `r`, and the bytes that name no register have a statement of their own
(`RegisterOperandsAreChecked`). `s.pc.toNat ≤ 255` is what the fetch check of R101 establishes before any handler runs. -/

open Sys2Proof Sys2Proof.Machine

/-! ## Encoding -/

/-- Words written out from R81, R85 and R86, the example of R95 among them. The byte values are the spec's decision D14
(log entry 3). The last clause, that an LDI of two bytes is answered `truncated 2`, is the model's reading of R104
(log entry 12, DEDUCED: a missing consumed byte is the decoder's truncated answer). -/
def Obligations.SpecWordsDecode : Prop :=
  decode false [0x82, 0x00, 0x08, 0x47, 0x00, 0x01] = .ok (.ldi 0 8, [0x47, 0x00, 0x01]) ∧
  decode false [0x47, 0x00, 0x01] = .ok (.prn 0, [0x01]) ∧
  decode false [0x01] = .ok (.hlt, []) ∧
  decode false [0xA7, 0x01, 0x02] = .ok (.cmp 1 2, []) ∧
  decode false [0x50, 0x01] = .ok (.call 1, []) ∧
  decode false [0x56, 0x04] = .ok (.jne 4, []) ∧
  decode true [0x69, 0x03] = .ok (.not 3, []) ∧
  decode true [0xAD, 0x00, 0x01] = .ok (.shr 0 1, []) ∧
  decode false [0xA8, 0x00, 0x01] = .error (.unknownOpcode 0xA8) ∧
  decode false [0x82, 0x00] = .error (.truncated 2)

/-- Decoding is exactly the inverse of encoding, for every instruction with every operand byte and every following byte:
no operand bit is dropped and no other bytes decode to the instruction (R81, R87, R88). -/
def Obligations.DecodeIsInverseOfEncode : Prop :=
  ∀ (ext : Bool) (bytes rest : List Byte) (i : Instr),
    decode ext bytes = .ok (i, rest) ↔ bytes = encode i ++ rest ∧ (i.optional = true → ext = true)

/-! ## The step -/

/-- A step runs the decoded instruction (R100, R107, R113): the bytes at `pc` are the instruction's encoding, and either no
lookahead address exceeds 255 or the lookahead is inert. -/
def Obligations.StepRunsTheDecodedInstruction : Prop :=
  ∀ (s : State) (i : Instr), s.run = .running → (i.optional = true → s.cfg.extAluOpcodes = true) →
    (∀ (k : Nat) (b : Byte), (encode i)[k]? = some b → s.mem.readAt (s.pc.toNat + k) = some b) →
    (s.cfg.lookaheadOob = .inert ∨ s.pc.toNat + 2 ≤ 255) →
    step s = exec i s

/-- R101, the fetch range check. -/
def Obligations.FetchAbove255Faults : Prop :=
  ∀ s : State, s.run = .running → 255 < s.pc.toNat →
    step s = .next (faultedWith s .outOfBounds none (some .fetch) (some s.pc.toNat))

/-- R103: an unused lookahead read above 255 is ABSENT and raises nothing under `inert`, and raises for the lowest such
address before decoding under `fault`. -/
def Obligations.LookaheadAbove255FollowsThePolicy : Prop :=
  (∀ (s : State) (t : Nat), 255 < t → s.cfg.lookaheadOob = .inert → look s t = .ok none) ∧
  (∀ (s : State) (r : StopRecord), s.run = .running → s.stop = none → s.cfg.lookaheadOob = .inert →
    ∀ t, step s = .next t → t.stop = some r → r.kind ≠ some .lookahead) ∧
  (∀ (s : State) (op : Byte), s.run = .running → s.cfg.lookaheadOob = .fault → 254 ≤ s.pc.toNat →
    s.mem.readAt s.pc.toNat = some op →
    step s = .next (faultedWith s .outOfBounds (some op) (some .lookahead) (some 256)))

/-- R104: a consumed operand byte above 255 faults; the lowest such address is 256. -/
def Obligations.ConsumedOperandAbove255Faults : Prop :=
  ∀ (s : State) (m : Mnemonic), s.run = .running → s.cfg.lookaheadOob = .inert →
    s.mem.readAt s.pc.toNat = some m.row.opcode → (m.row.optional = true → s.cfg.extAluOpcodes = true) →
    255 < s.pc.toNat + (m.row.format.length - 1) →
    step s = .next (faultedWith s .outOfBounds (some m.row.opcode) (some .operand) (some 256))

/-- A byte with no handler halts the core and writes nothing else. R106 lists the record's reason, pc and opcode; kind none
is R41's, and value none is the model's inference (log entry 8, DEDUCED). The byte values are the spec's decision D14
(log entry 3). -/
def Obligations.UnknownOpcodeHaltsCleanly : Prop :=
  ∀ (s : State) (op : Byte), s.run = .running → s.mem.readAt s.pc.toNat = some op →
    (s.cfg.lookaheadOob = .inert ∨ s.pc.toNat + 2 ≤ 255) →
    op ∉ ([0x01, 0x82, 0x47, 0xA0, 0xA2, 0x45, 0x46, 0x50, 0x11, 0xA7, 0x54, 0x55, 0x56] : List Byte) →
    (s.cfg.extAluOpcodes = false ∨ op ∉ ([0xA8, 0xAA, 0xAB, 0x69, 0xAC, 0xAD, 0xA4] : List Byte)) →
    step s = .next { s with run := .halted, stop := some ⟨.unknownOpcode, s.pc, some op, none, none⟩ }

/-- R108 and the table of R109: every operand byte the format names as a register is checked, `a` before `b`, before the
handler makes any write; a not-taken JEQ or JNE checks it too, LDI's immediate is never checked, and HLT and RET check
nothing. -/
def Obligations.RegisterOperandsAreChecked : Prop :=
  (∀ mk ∈ ([.prn, .push, .pop, .call, .jmp, .jeq, .jne, .not] : List (Byte → Instr)),
    ∀ (s : State) (a : Byte), 7 < a.toNat →
      exec (mk a) s = .next (faultedWith s .outOfBounds (some (mk a).opcode) (some .register) (some a.toNat))) ∧
  (∀ (s : State) (a imm : Byte), 7 < a.toNat →
    exec (.ldi a imm) s = .next (faultedWith s .outOfBounds (some 0x82) (some .register) (some a.toNat))) ∧
  (∀ mk ∈ ([.add, .mul, .cmp, .and, .or, .xor, .shl, .shr, .mod] : List (Byte → Byte → Instr)),
    ∀ (s : State) (a b : Byte), 7 < a.toNat ∨ 7 < b.toNat →
      exec (mk a b) s = .next (faultedWith s .outOfBounds (some (mk a b).opcode) (some .register)
        (some (if 7 < a.toNat then a.toNat else b.toNat)))) ∧
  (∀ (s t : State) (ra : Fin 8) (imm : Byte), exec (.ldi (regByte ra) imm) s = .next t → t.stop = s.stop) ∧
  (∀ s t : State, exec .ret s = .next t → t.stop = s.stop) ∧
  ∀ s t : State, exec .hlt s = .next t → t.run = .halted

/-- R114: in HALTED and FAULTED there is no step. That "no step" is written as the fault `terminalState` is the model's
choice (log entry 2). -/
def Obligations.TerminalStatesHaveNoStep : Prop :=
  ∀ s : State, s.run = .halted ∨ s.run = .faulted → step s = .fault .terminalState

/-- R253: a step is enabled exactly in the RUNNING states, whatever the rest of the state holds. -/
def Obligations.ExactlyRunningStatesStep : Prop :=
  ∀ s : State, (∃ t, step s = .next t) ↔ s.run = .running

/-- R212: a fault writes nothing but the run state and the stop record, which holds the kept pc and the opcode byte at
it (none exactly for a fetch fault). -/
def Obligations.FaultsArePrecise : Prop :=
  ∀ s t : State, step s = .next t → t.run = .faulted →
    ∃ r : StopRecord, t = { s with run := .faulted, stop := some r } ∧ r.pc = s.pc ∧
      (r.opcode = none ↔ r.kind = some .fetch) ∧
      ∀ op, r.opcode = some op → s.mem.readAt s.pc.toNat = some op

/-- A step that ends in HALTED writes nothing but the run state and the stop record, and its reason is HLT exactly when the
opcode byte is 0x01 (R106, R112, R216). The record's kind none is R41's, and its value none is the model's inference
(log entry 8, DEDUCED). The byte value is the spec's decision D14 (log entry 3). -/
def Obligations.HaltsWriteOnlyRunAndStop : Prop :=
  ∀ s t : State, step s = .next t → t.run = .halted →
    ∃ op : Byte, s.mem.readAt s.pc.toNat = some op ∧
      t = { s with run := .halted, stop := some ⟨if op = 0x01 then .hlt else .unknownOpcode, s.pc, some op, none, none⟩ }

/-- The "raised by" column of R210 for the conditions an instruction raises itself, and R215: UnsupportedALUOperation is
raised by no step. -/
def Obligations.ConditionsAreRaisedOnlyWhereTabled : Prop :=
  ∀ (s t : State) (r : StopRecord), s.stop = none → step s = .next t → t.stop = some r →
    r.reason ≠ .unsupportedAluOperation ∧
    (r.reason = .flagUnset → s.flag = .unset ∧ s.cfg.unsetFlagPolicy = .fault ∧
      (r.opcode = some 0x55 ∨ r.opcode = some 0x56)) ∧
    (r.reason = .divideOrModuloByZero → s.cfg.extAluOpcodes = true ∧ r.opcode = some 0xA4 ∧
      ∃ rb : Fin 8, s.mem.readAt (s.pc.toNat + 2) = some (regByte rb) ∧ (s.reg rb).toNat = 0) ∧
    (r.kind = some .returnAddress → r.opcode = some 0x50 ∧ s.pc.toNat = 254)

/-! ## Invariants -/

/-- The invariant holds at reset (R46). Its Memory clause is the canonical form, which is the model's choice
(log entry 4, DESIGN CHOICE). -/
def Obligations.ResetMeetsTheInvariant : Prop := State.reset.Inv

/-- The invariant holds after every boot, whatever the image. Its Memory clause is the canonical form, which is the model's
choice (log entry 4, DESIGN CHOICE). -/
def Obligations.BootMeetsTheInvariant : Prop :=
  ∀ (cfg : Config) (image : List Byte) (s : State), boot cfg image = .ok s → s.Inv

/-- Every step keeps the invariant: canonical Memory within 0 to 255, `pc` at most 256, and a stop record exactly when R41
says, whose fields agree with the run state and the pc as R41, R210 and R211 say. Two clauses are the model's and not the
spec's: the canonical form of Memory (log entry 4, DESIGN CHOICE), and value none for HLT and UnknownOpcode (log entry 8,
DEDUCED). -/
def Obligations.EveryStepKeepsTheInvariant : Prop :=
  ∀ s t : State, s.Inv → step s = .next t → t.Inv

/-- Every run of any length from any state that meets the invariant ends in a state that meets it. The invariant holds two
clauses that are the model's and not the spec's: the canonical form of Memory (log entry 4, DESIGN CHOICE), and value none
for HLT and UnknownOpcode (log entry 8, DEDUCED). -/
def Obligations.EveryRunKeepsTheInvariant : Prop :=
  ∀ (n : Nat) (s t : State), s.Inv → Host.Core.run Sys2Proof.core n s = .next t → t.Inv

/-- R44: no step changes the parameters. -/
def Obligations.NoStepChangesTheParameters : Prop :=
  ∀ s t : State, step s = .next t → t.cfg = s.cfg

/-! ## Whole-machine rules -/

/-- R39: only CMP writes the flag, and no step sets it to UNSET. -/
def Obligations.OnlyCmpWritesTheFlag : Prop :=
  ∀ s t : State, step s = .next t → t.flag ≠ s.flag →
    s.mem.readAt s.pc.toNat = some 0xA7 ∧ t.flag ≠ .unset

/-- R39: only JEQ and JNE read the flag. Any other instruction run with another flag value gives the same state but for
the flag itself. -/
def Obligations.OnlyConditionalJumpsReadTheFlag : Prop :=
  ∀ (i : Instr) (s : State) (f : Flag), (∀ a, i ≠ .jeq a) → (∀ a, i ≠ .jne a) →
    ∃ t u, exec i s = .next t ∧ exec i { s with flag := f } = .next u ∧ { u with flag := t.flag } = t

/-- R42: PRN appends the named register's value to `out`, and nothing else changes `out`. -/
def Obligations.OnlyPrnEmits : Prop :=
  ∀ s t : State, step s = .next t →
    t.out = s.out ∨
    (s.mem.readAt s.pc.toNat = some 0x47 ∧
      ∃ r : Fin 8, s.mem.readAt (s.pc.toNat + 1) = some (regByte r) ∧ t.out = s.out ++ [s.reg r])

/-- R62: only PUSH and CALL write Memory, and they write one cell, the one below SP. -/
def Obligations.OnlyPushAndCallWriteMemory : Prop :=
  ∀ (s t : State) (a : Byte), step s = .next t → t.mem.read a ≠ s.mem.read a →
    a = spDown s.sp ∧ (s.mem.readAt s.pc.toNat = some 0x45 ∨ s.mem.readAt s.pc.toNat = some 0x50)

/-- The table of R34: which instructions write which register. -/
def Obligations.RegistersAreWrittenOnlyAsTabled : Prop :=
  ∀ (i : Instr) (s t : State) (r : Fin 8), exec i s = .next t → t.reg r ≠ s.reg r →
    match i with
    | .ldi a _ | .add a _ | .mul a _ | .and a _ | .or a _ | .xor a _ | .shl a _ | .shr a _ | .mod a _ | .not a =>
      a = regByte r
    | .pop a => a = regByte r ∨ r = 7
    | .push _ | .call _ | .ret => r = 7
    | .hlt | .prn _ | .cmp _ _ | .jmp _ | .jeq _ | .jne _ => False

/-- Equal readings are equal memories: the canonical form loses nothing and adds nothing (R60; the form is the model's,
log entry 4). -/
def Obligations.CanonicalMemoryIsDeterminedByItsBytes : Prop :=
  ∀ m n : Memory, m.wf → n.wf → (∀ a : Byte, m.read a = n.read a) → m = n

/-- R254: a run's end does not depend on the fuel given, once it is enough, and it is a terminal state. -/
def Obligations.EndOfRunDoesNotDependOnFuel : Prop :=
  ∀ (n m : Nat) (s t : State), n ≤ m → endOfRun n s = some t → endOfRun m s = some t ∧ t.terminal = true

/-! ## Reset, boot and ports -/

/-- R46 with R241: every piece of state right after reset, the image in Memory from address 0 and zero elsewhere. -/
def Obligations.BootLeavesTheResetState : Prop :=
  ∀ (cfg : Config) (image : List Byte), 1 ≤ image.length → image.length ≤ 256 →
    ∃ s, boot cfg image = .ok s ∧
      (∀ a : Byte, s.mem.read a = (image[a.toNat]?).getD 0x00) ∧
      (∀ r : Fin 8, r ≠ 7 → s.reg r = 0x00) ∧ s.reg 7 = 0xF4 ∧ s.pc = 0x000 ∧ s.flag = .unset ∧
      s.run = .running ∧ s.stop = none ∧ s.out = [] ∧ s.cfg = cfg

/-- Without a program, or with one longer than 256 bytes, reset is not released (R246). That the empty list stands for no
program, a supplied image of 0 bytes included, is the model's choice (log entry 13, DESIGN CHOICE). -/
def Obligations.BootRefusesMissingAndOversizedImages : Prop :=
  ∀ cfg : Config, boot cfg [] = .error .missingProgram ∧
    ∀ image : List Byte, 256 < image.length → boot cfg image = .error (.outOfBounds 256)

/-- R17: the trace port shows `pc`, the next opcode and lookahead bytes and the 8 registers, whatever is drawn for
addresses above 255. -/
def Obligations.TraceShowsTheNextFetch : Prop :=
  ∀ (draw : Nat → Byte) (s : State) (op a b : Byte), s.mem.readAt s.pc.toNat = some op →
    s.mem.readAt (s.pc.toNat + 1) = some a → s.mem.readAt (s.pc.toNat + 2) = some b →
    s.trace draw = { pc := s.pc, op := op, a := a, b := b, x := s.x }

/-! ## HLT, LDI, PRN -/

/-- HLT (R112), with its corner case: a HLT at address 255 halts cleanly under `inert` and raises
OutOfBounds(lookahead, 256) under `fault`. R112 lists the record's reason, pc and opcode; kind none is R41's, and value none
is the model's inference (log entry 8, DEDUCED). The opcode byte is the spec's decision D14 (log entry 3). -/
def Obligations.HltHalts : Prop :=
  encode .hlt = [0x01] ∧
  (∀ s : State, exec .hlt s = .next { s with run := .halted, stop := some ⟨.hlt, s.pc, some 0x01, none, none⟩ }) ∧
  ∀ s : State, s.run = .running → s.pc.toNat = 255 → s.mem.read 255 = 0x01 →
    step s =
      match s.cfg.lookaheadOob with
      | .inert => .next { s with run := .halted, stop := some ⟨.hlt, s.pc, some 0x01, none, none⟩ }
      | .fault => .next (faultedWith s .outOfBounds (some 0x01) (some .lookahead) (some 256))

/-- R170: for every register and every immediate. -/
def Obligations.LdiLoadsTheImmediate : Prop :=
  ∀ (s : State) (ra : Fin 8) (imm : Byte), s.pc.toNat ≤ 255 →
    encode (.ldi (regByte ra) imm) = [0x82, regByte ra, imm] ∧
    ∃ t, exec (.ldi (regByte ra) imm) s = .next t ∧ t.reg ra = imm ∧ t.pc.toNat = s.pc.toNat + 3 ∧
      KeepsRegsBut ra s t ∧ t.flag = s.flag ∧ t.out = s.out ∧ KeepsMemory s t ∧ KeepsRun s t

/-- R171. -/
def Obligations.PrnEmitsTheRegister : Prop :=
  ∀ (s : State) (ra : Fin 8), s.pc.toNat ≤ 255 →
    encode (.prn (regByte ra)) = [0x47, regByte ra] ∧
    ∃ t, exec (.prn (regByte ra)) s = .next t ∧ t.out = s.out ++ [s.reg ra] ∧ t.pc.toNat = s.pc.toNat + 2 ∧
      KeepsRegs s t ∧ t.flag = s.flag ∧ KeepsMemory s t ∧ KeepsRun s t

/-! ## ALU instructions -/

/-- The shape of a two-register ALU instruction: the result goes to `reg_a`, `pc` advances by 3, nothing else changes. -/
def AluTwoWrites (mk : Byte → Byte → Instr) (opcode : Byte) (f : Nat → Nat → Nat) (ok : Nat → Prop) : Prop :=
  ∀ (s : State) (ra rb : Fin 8), s.pc.toNat ≤ 255 → ok (s.reg rb).toNat →
    encode (mk (regByte ra) (regByte rb)) = [opcode, regByte ra, regByte rb] ∧
    ∃ t, exec (mk (regByte ra) (regByte rb)) s = .next t ∧
      (t.reg ra).toNat = f (s.reg ra).toNat (s.reg rb).toNat ∧ t.pc.toNat = s.pc.toNat + 3 ∧
      KeepsRegsBut ra s t ∧ t.flag = s.flag ∧ t.out = s.out ∧ KeepsMemory s t ∧ KeepsRun s t

/-- R133, R145. -/
def Obligations.AddWritesTheWrappedSum : Prop :=
  AluTwoWrites .add 0xA0 (fun x y => (x + y) % 256) fun _ => True

/-- R134, R146. -/
def Obligations.MulWritesTheLowByteOfTheProduct : Prop :=
  AluTwoWrites .mul 0xA2 (fun x y => (x * y) % 256) fun _ => True

/-- R135 to R137, R150 to R152. -/
def Obligations.AndOrXorWriteTheBitwiseResult : Prop :=
  AluTwoWrites .and 0xA8 (fun x y => x &&& y) (fun _ => True) ∧
  AluTwoWrites .or 0xAA (fun x y => x ||| y) (fun _ => True) ∧
  AluTwoWrites .xor 0xAB (fun x y => x ^^^ y) fun _ => True

/-- R154 with R139: the count is the whole byte, and a count of 8 or more gives 0. -/
def Obligations.ShlShiftsByTheWholeByte : Prop :=
  AluTwoWrites .shl 0xAC (fun x y => if y < 8 then (x * 2 ^ y) % 256 else 0) fun _ => True

/-- R155 with R140: a logical shift; a count of 8 or more gives 0. -/
def Obligations.ShrShiftsByTheWholeByte : Prop :=
  AluTwoWrites .shr 0xAD (fun x y => if y < 8 then x / 2 ^ y else 0) fun _ => True

/-- R156, R141: the unsigned remainder for a divisor other than 0, and the fault for a divisor of 0 (R213). -/
def Obligations.ModWritesTheRemainderOrFaults : Prop :=
  AluTwoWrites .mod 0xA4 (fun x y => x % y) (fun y => y ≠ 0) ∧
  ∀ (s : State) (ra rb : Fin 8), (s.reg rb).toNat = 0 →
    exec (.mod (regByte ra) (regByte rb)) s =
      .next (faultedWith s .divideOrModuloByZero (some 0xA4) none none)

/-- R153 with R138. -/
def Obligations.NotWritesTheComplement : Prop :=
  ∀ (s : State) (ra : Fin 8), s.pc.toNat ≤ 255 →
    encode (.not (regByte ra)) = [0x69, regByte ra] ∧
    ∃ t, exec (.not (regByte ra)) s = .next t ∧ (t.reg ra).toNat = 255 - (s.reg ra).toNat ∧
      t.pc.toNat = s.pc.toNat + 2 ∧ KeepsRegsBut ra s t ∧ t.flag = s.flag ∧ t.out = s.out ∧ KeepsMemory s t ∧
      KeepsRun s t

/-- R142, R147. -/
def Obligations.CmpSetsTheFlagUnsigned : Prop :=
  ∀ (s : State) (ra rb : Fin 8), s.pc.toNat ≤ 255 →
    encode (.cmp (regByte ra) (regByte rb)) = [0xA7, regByte ra, regByte rb] ∧
    ∃ t, exec (.cmp (regByte ra) (regByte rb)) s = .next t ∧
      (t.flag = .greater ↔ (s.reg ra).toNat > (s.reg rb).toNat) ∧
      (t.flag = .less ↔ (s.reg ra).toNat < (s.reg rb).toNat) ∧
      (t.flag = .equal ↔ (s.reg ra).toNat = (s.reg rb).toNat) ∧
      t.pc.toNat = s.pc.toNat + 3 ∧ KeepsRegs s t ∧ t.out = s.out ∧ KeepsMemory s t ∧ KeepsRun s t

/-! ## Stack, call and return -/

/-- R180 with R184: SP goes down modulo 256 and the byte is stored at the new SP; PUSH R7 stores the decremented SP. -/
def Obligations.PushStoresBelowTheStackPointer : Prop :=
  ∀ (s : State) (ra : Fin 8), s.pc.toNat ≤ 255 → s.mem.wf →
    encode (.push (regByte ra)) = [0x45, regByte ra] ∧
    ∃ t, exec (.push (regByte ra)) s = .next t ∧
      (t.reg 7).toNat = ((s.reg 7).toNat + 255) % 256 ∧
      t.mem.read (spDown s.sp) = (if ra = 7 then t.reg 7 else s.reg ra) ∧
      (∀ a : Byte, a ≠ spDown s.sp → t.mem.read a = s.mem.read a) ∧
      t.pc.toNat = s.pc.toNat + 2 ∧ KeepsRegsBut 7 s t ∧ t.flag = s.flag ∧ t.out = s.out ∧ KeepsRun s t

/-- R181 with R184: POP R7 leaves the popped byte plus one in SP. -/
def Obligations.PopLoadsFromTheStackPointer : Prop :=
  ∀ (s : State) (ra : Fin 8), s.pc.toNat ≤ 255 →
    encode (.pop (regByte ra)) = [0x46, regByte ra] ∧
    ∃ t, exec (.pop (regByte ra)) s = .next t ∧
      (ra ≠ 7 → t.reg ra = s.mem.read s.sp ∧ (t.reg 7).toNat = ((s.reg 7).toNat + 1) % 256) ∧
      (ra = 7 → (t.reg 7).toNat = ((s.mem.read s.sp).toNat + 1) % 256) ∧
      (∀ q : Fin 8, q ≠ ra → q ≠ 7 → t.reg q = s.reg q) ∧
      t.pc.toNat = s.pc.toNat + 2 ∧ t.flag = s.flag ∧ t.out = s.out ∧ KeepsMemory s t ∧ KeepsRun s t

/-- R182: the return address `pc0 + 2` is pushed and `pc` takes the register read after the push (CALL R7 jumps to the
decremented SP); a return address above 255 faults with nothing written. -/
def Obligations.CallPushesTheReturnAddressAndJumps : Prop :=
  (∀ (s : State) (ra : Fin 8), s.pc.toNat + 2 ≤ 255 → s.mem.wf →
    encode (.call (regByte ra)) = [0x50, regByte ra] ∧
    ∃ t, exec (.call (regByte ra)) s = .next t ∧
      (t.reg 7).toNat = ((s.reg 7).toNat + 255) % 256 ∧
      (t.mem.read (spDown s.sp)).toNat = s.pc.toNat + 2 ∧
      (∀ a : Byte, a ≠ spDown s.sp → t.mem.read a = s.mem.read a) ∧
      t.pc.toNat = (if ra = 7 then t.reg 7 else s.reg ra).toNat ∧
      KeepsRegsBut 7 s t ∧ t.flag = s.flag ∧ t.out = s.out ∧ KeepsRun s t) ∧
  (∀ (s : State) (ra : Fin 8), 255 < s.pc.toNat + 2 →
    exec (.call (regByte ra)) s =
      .next (faultedWith s .outOfBounds (some 0x50) (some .returnAddress) (some (s.pc.toNat + 2))))

/-- R183 with R184. -/
def Obligations.RetPopsThePc : Prop :=
  encode .ret = [0x11] ∧
  ∀ s : State, ∃ t, exec .ret s = .next t ∧ t.pc.toNat = (s.mem.read s.sp).toNat ∧
    (t.reg 7).toNat = ((s.reg 7).toNat + 1) % 256 ∧
    KeepsRegsBut 7 s t ∧ t.flag = s.flag ∧ t.out = s.out ∧ KeepsMemory s t ∧ KeepsRun s t

/-- R187, first part: for every register, R7 included, and every SP value. -/
def Obligations.PushThenPopRestoresEveryRegister : Prop :=
  ∀ (s : State) (r : Fin 8), s.mem.wf →
    ∃ t u, exec (.push (regByte r)) s = .next t ∧ exec (.pop (regByte r)) t = .next u ∧ KeepsRegs s u

/-- R187, second part: a RET at the same stack depth, with the return address still in its cell, returns to the CALL's
address + 2 and leaves SP as before the CALL. -/
def Obligations.CallThenRetReturnsAfterTheCall : Prop :=
  ∀ (s : State) (r : Fin 8), s.mem.wf → s.pc.toNat + 2 ≤ 255 →
    ∃ t, exec (.call (regByte r)) s = .next t ∧
      ∀ u : State, u.sp = t.sp → u.mem.read u.sp = t.mem.read t.sp →
        ∃ v, exec .ret u = .next v ∧ v.pc.toNat = s.pc.toNat + 2 ∧ v.sp = s.sp

/-- R32, R33: a write of register 7 by LDI moves the stack of the next push. -/
def Obligations.LdiOfRegister7MovesTheStack : Prop :=
  ∀ (s : State) (v : Byte) (r : Fin 8), s.mem.wf →
    ∃ t u, exec (.ldi (regByte 7) v) s = .next t ∧ exec (.push (regByte r)) t = .next u ∧
      u.sp = v - 1 ∧ u.mem.read (v - 1) = (if r = 7 then v - 1 else s.reg r) ∧
      ∀ a : Byte, a ≠ v - 1 → u.mem.read a = s.mem.read a

/-! ## Jumps -/

/-- The target and frame of a taken jump to the named register's value. -/
def JumpsTo (ra : Fin 8) (s t : State) : Prop :=
  t.pc.toNat = (s.reg ra).toNat ∧ KeepsRegs s t ∧ t.flag = s.flag ∧ t.out = s.out ∧ KeepsMemory s t ∧ KeepsRun s t

/-- The fall-through of a conditional jump. -/
def FallsThrough (s t : State) : Prop :=
  t.pc.toNat = s.pc.toNat + 2 ∧ KeepsRegs s t ∧ t.flag = s.flag ∧ t.out = s.out ∧ KeepsMemory s t ∧ KeepsRun s t

/-- R200. -/
def Obligations.JmpJumpsToTheRegister : Prop :=
  ∀ (s : State) (ra : Fin 8),
    encode (.jmp (regByte ra)) = [0x54, regByte ra] ∧
    ∃ t, exec (.jmp (regByte ra)) s = .next t ∧ JumpsTo ra s t

/-- R201, for every value of the flag. -/
def Obligations.JeqJumpsExactlyOnEqual : Prop :=
  ∀ (s : State) (ra : Fin 8), s.pc.toNat ≤ 255 →
    encode (.jeq (regByte ra)) = [0x55, regByte ra] ∧
    (s.flag = .equal → ∃ t, exec (.jeq (regByte ra)) s = .next t ∧ JumpsTo ra s t) ∧
    (s.flag = .less ∨ s.flag = .greater ∨ (s.flag = .unset ∧ s.cfg.unsetFlagPolicy = .notEqual) →
      ∃ t, exec (.jeq (regByte ra)) s = .next t ∧ FallsThrough s t) ∧
    (s.flag = .unset → s.cfg.unsetFlagPolicy = .fault →
      exec (.jeq (regByte ra)) s = .next (faultedWith s .flagUnset (some 0x55) none none))

/-- R202, for every value of the flag. -/
def Obligations.JneJumpsExactlyOnNotEqual : Prop :=
  ∀ (s : State) (ra : Fin 8), s.pc.toNat ≤ 255 →
    encode (.jne (regByte ra)) = [0x56, regByte ra] ∧
    (s.flag = .less ∨ s.flag = .greater ∨ (s.flag = .unset ∧ s.cfg.unsetFlagPolicy = .notEqual) →
      ∃ t, exec (.jne (regByte ra)) s = .next t ∧ JumpsTo ra s t) ∧
    (s.flag = .equal → ∃ t, exec (.jne (regByte ra)) s = .next t ∧ FallsThrough s t) ∧
    (s.flag = .unset → s.cfg.unsetFlagPolicy = .fault →
      exec (.jne (regByte ra)) s = .next (faultedWith s .flagUnset (some 0x56) none none))

/-- R204: JEQ and JNE with the flag UNSET, under each policy. -/
def Obligations.UnsetFlagFollowsThePolicy : Prop :=
  ∀ (s : State) (ra : Fin 8), s.pc.toNat ≤ 255 → s.flag = .unset →
    (s.cfg.unsetFlagPolicy = .fault →
      exec (.jeq (regByte ra)) s = .next (faultedWith s .flagUnset (some 0x55) none none) ∧
      exec (.jne (regByte ra)) s = .next (faultedWith s .flagUnset (some 0x56) none none)) ∧
    (s.cfg.unsetFlagPolicy = .notEqual →
      (∃ t, exec (.jeq (regByte ra)) s = .next t ∧ FallsThrough s t) ∧
      ∃ u, exec (.jne (regByte ra)) s = .next u ∧ JumpsTo ra s u)
end

