-- ==== Sys2Proof/Laws/Decode.lean ====
section
/-! SUPPORT. What the dispatch lookup and the operand reader can do (`30_encoding.md` R81, R87). -/

namespace Sys2Proof

/-- The lookup finds a row exactly by its whole opcode byte, an optional row only under `EXT_ALU_OPCODES`. -/
theorem Mnemonic.ofOpcode_eq_some {ext : Bool} {op : Byte} {m : Mnemonic} :
    Mnemonic.ofOpcode ext op = some m ↔ m.row.opcode = op ∧ (m.row.optional = true → ext = true) := by
  constructor
  · intro h
    have hp := List.find?_some h
    simp only [Bool.and_eq_true, beq_iff_eq, Bool.or_eq_true, Bool.not_eq_true'] at hp
    refine ⟨hp.1, fun ho => hp.2.resolve_right ?_⟩
    simp [ho]
  · rintro ⟨rfl, hext⟩
    cases m <;> cases ext <;> first | rfl | simp [Mnemonic.row] at hext

theorem Mnemonic.ofOpcode_eq_none {ext : Bool} {op : Byte} :
    Mnemonic.ofOpcode ext op = none ↔ ∀ m : Mnemonic, m.row.opcode = op → m.row.optional = true ∧ ext = false := by
  rw [Option.eq_none_iff_forall_ne_some]
  refine forall_congr' fun m => ?_
  rw [Ne, Mnemonic.ofOpcode_eq_some]
  cases m.row.optional <;> cases ext <;> simp

theorem takeOne_eq_ok {mk : Byte → Instr} {bs rest : List Byte} {i : Instr} :
    takeOne mk bs = .ok (i, rest) ↔ ∃ a, i = mk a ∧ bs = a :: rest := by
  cases bs with
  | nil => simp [takeOne]
  | cons a bs =>
    simp only [takeOne, Except.ok.injEq, Prod.mk.injEq, List.cons.injEq]
    constructor
    · rintro ⟨rfl, rfl⟩
      exact ⟨a, rfl, rfl, rfl⟩
    · rintro ⟨c, rfl, rfl, rfl⟩
      exact ⟨rfl, rfl⟩

theorem takeTwo_eq_ok {mk : Byte → Byte → Instr} {bs rest : List Byte} {i : Instr} :
    takeTwo mk bs = .ok (i, rest) ↔ ∃ a b, i = mk a b ∧ bs = a :: b :: rest := by
  match bs with
  | [] => simp [takeTwo]
  | [_] => simp [takeTwo]
  | a :: b :: bs =>
    simp only [takeTwo, Except.ok.injEq, Prod.mk.injEq, List.cons.injEq]
    constructor
    · rintro ⟨rfl, rfl⟩
      exact ⟨a, b, rfl, rfl, rfl, rfl⟩
    · rintro ⟨c, d, rfl, rfl, rfl, rfl⟩
      exact ⟨rfl, rfl⟩

/-- Reading a row's operands succeeds exactly on an instruction of that row followed by the rest. -/
theorem Mnemonic.parse_eq_ok {m : Mnemonic} {bs rest : List Byte} {i : Instr} :
    m.parse bs = .ok (i, rest) ↔ i.mnemonic = m ∧ bs = i.operandBytes ++ rest := by
  constructor
  · intro h
    cases m <;> simp only [Mnemonic.parse, takeOne_eq_ok, takeTwo_eq_ok, Except.ok.injEq, Prod.mk.injEq] at h <;>
      first
        | (obtain ⟨a, b, rfl, rfl⟩ := h; exact ⟨rfl, rfl⟩)
        | (obtain ⟨a, rfl, rfl⟩ := h; exact ⟨rfl, rfl⟩)
        | (obtain ⟨rfl, rfl⟩ := h; exact ⟨rfl, rfl⟩)
  · rintro ⟨rfl, rfl⟩
    cases i <;> rfl

/-- Reading a row's operands fails exactly when bytes it consumes are missing, and names the lowest of them. -/
theorem Mnemonic.parse_eq_error {m : Mnemonic} {bs : List Byte} {e : DecodeError} :
    m.parse bs = .error e ↔ bs.length + 1 < m.row.format.length ∧ e = .truncated (bs.length + 1) := by
  match bs with
  | [] => cases m <;> simp [Mnemonic.parse, takeOne, takeTwo, Mnemonic.row, Format.length, eq_comm]
  | [_] => cases m <;> simp [Mnemonic.parse, takeOne, takeTwo, Mnemonic.row, Format.length, eq_comm]
  | _ :: _ :: _ => cases m <;> simp [Mnemonic.parse, takeOne, takeTwo, Mnemonic.row, Format.length]

/-- An instruction's operand bytes and opcode make up its length. -/
theorem Instr.operandBytes_length (i : Instr) : i.operandBytes.length + 1 = i.length := by
  cases i <;> rfl

end Sys2Proof
end

