-- ==== Sys2Proof/Laws/State.lean ====
section
/-! SUPPORT. One lemma per field per update of the state, so that no proof unfolds a record update, and the register file
read after a write. The spelling proofs meet is `s.reg 7` for SP and `setReg 7` for its update. -/

namespace Sys2Proof.Machine

section SetReg
variable (s : State) (r : Fin 8) (v : Byte)

@[simp] theorem State.setReg_x : (s.setReg r v).x = s.x.set r v := rfl
@[simp] theorem State.setReg_pc : (s.setReg r v).pc = s.pc := rfl
@[simp] theorem State.setReg_flag : (s.setReg r v).flag = s.flag := rfl
@[simp] theorem State.setReg_run : (s.setReg r v).run = s.run := rfl
@[simp] theorem State.setReg_stop : (s.setReg r v).stop = s.stop := rfl
@[simp] theorem State.setReg_out : (s.setReg r v).out = s.out := rfl
@[simp] theorem State.setReg_mem : (s.setReg r v).mem = s.mem := rfl
@[simp] theorem State.setReg_cfg : (s.setReg r v).cfg = s.cfg := rfl

end SetReg

section WriteMem
variable (s : State) (a v : Byte)

@[simp] theorem State.writeMem_x : (s.writeMem a v).x = s.x := rfl
@[simp] theorem State.writeMem_pc : (s.writeMem a v).pc = s.pc := rfl
@[simp] theorem State.writeMem_flag : (s.writeMem a v).flag = s.flag := rfl
@[simp] theorem State.writeMem_run : (s.writeMem a v).run = s.run := rfl
@[simp] theorem State.writeMem_stop : (s.writeMem a v).stop = s.stop := rfl
@[simp] theorem State.writeMem_out : (s.writeMem a v).out = s.out := rfl
@[simp] theorem State.writeMem_mem : (s.writeMem a v).mem = s.mem.write a v := rfl
@[simp] theorem State.writeMem_cfg : (s.writeMem a v).cfg = s.cfg := rfl
@[simp] theorem State.writeMem_reg (q : Fin 8) : (s.writeMem a v).reg q = s.reg q := rfl

end WriteMem

section Advance
variable (s : State) (n : Nat)

@[simp] theorem State.advance_x : (s.advance n).x = s.x := rfl
@[simp] theorem State.advance_pc : (s.advance n).pc = s.pc + BitVec.ofNat 9 n := rfl
@[simp] theorem State.advance_flag : (s.advance n).flag = s.flag := rfl
@[simp] theorem State.advance_run : (s.advance n).run = s.run := rfl
@[simp] theorem State.advance_stop : (s.advance n).stop = s.stop := rfl
@[simp] theorem State.advance_out : (s.advance n).out = s.out := rfl
@[simp] theorem State.advance_mem : (s.advance n).mem = s.mem := rfl
@[simp] theorem State.advance_cfg : (s.advance n).cfg = s.cfg := rfl
@[simp] theorem State.advance_reg (q : Fin 8) : (s.advance n).reg q = s.reg q := rfl

end Advance

section Jump
variable (s : State) (b : Byte)

@[simp] theorem State.jump_x : (s.jump b).x = s.x := rfl
@[simp] theorem State.jump_pc : (s.jump b).pc = b.setWidth 9 := rfl
@[simp] theorem State.jump_flag : (s.jump b).flag = s.flag := rfl
@[simp] theorem State.jump_run : (s.jump b).run = s.run := rfl
@[simp] theorem State.jump_stop : (s.jump b).stop = s.stop := rfl
@[simp] theorem State.jump_out : (s.jump b).out = s.out := rfl
@[simp] theorem State.jump_mem : (s.jump b).mem = s.mem := rfl
@[simp] theorem State.jump_cfg : (s.jump b).cfg = s.cfg := rfl
@[simp] theorem State.jump_reg (q : Fin 8) : (s.jump b).reg q = s.reg q := rfl

end Jump

section Emit
variable (s : State) (v : Byte)

@[simp] theorem State.emit_x : (s.emit v).x = s.x := rfl
@[simp] theorem State.emit_pc : (s.emit v).pc = s.pc := rfl
@[simp] theorem State.emit_flag : (s.emit v).flag = s.flag := rfl
@[simp] theorem State.emit_run : (s.emit v).run = s.run := rfl
@[simp] theorem State.emit_stop : (s.emit v).stop = s.stop := rfl
@[simp] theorem State.emit_out : (s.emit v).out = s.out ++ [v] := rfl
@[simp] theorem State.emit_mem : (s.emit v).mem = s.mem := rfl
@[simp] theorem State.emit_cfg : (s.emit v).cfg = s.cfg := rfl
@[simp] theorem State.emit_reg (q : Fin 8) : (s.emit v).reg q = s.reg q := rfl

end Emit

section Raise
variable (s : State) (op : Option Byte) (c : Condition)

@[simp] theorem State.raise_x : (s.raise op c).x = s.x := rfl
@[simp] theorem State.raise_pc : (s.raise op c).pc = s.pc := rfl
@[simp] theorem State.raise_flag : (s.raise op c).flag = s.flag := rfl
@[simp] theorem State.raise_run : (s.raise op c).run = .faulted := rfl
@[simp] theorem State.raise_stop : (s.raise op c).stop = some ⟨c.reason, s.pc, op, c.kind, c.value⟩ := rfl
@[simp] theorem State.raise_out : (s.raise op c).out = s.out := rfl
@[simp] theorem State.raise_mem : (s.raise op c).mem = s.mem := rfl
@[simp] theorem State.raise_cfg : (s.raise op c).cfg = s.cfg := rfl
@[simp] theorem State.raise_reg (q : Fin 8) : (s.raise op c).reg q = s.reg q := rfl

end Raise

section Halt
variable (s : State) (op : Byte) (why : StopReason)

@[simp] theorem State.halt_x : (s.halt op why).x = s.x := rfl
@[simp] theorem State.halt_pc : (s.halt op why).pc = s.pc := rfl
@[simp] theorem State.halt_flag : (s.halt op why).flag = s.flag := rfl
@[simp] theorem State.halt_run : (s.halt op why).run = .halted := rfl
@[simp] theorem State.halt_stop : (s.halt op why).stop = some ⟨why, s.pc, some op, none, none⟩ := rfl
@[simp] theorem State.halt_out : (s.halt op why).out = s.out := rfl
@[simp] theorem State.halt_mem : (s.halt op why).mem = s.mem := rfl
@[simp] theorem State.halt_cfg : (s.halt op why).cfg = s.cfg := rfl
@[simp] theorem State.halt_reg (q : Fin 8) : (s.halt op why).reg q = s.reg q := rfl

end Halt

/-- The register file: a read after a write gives the value written at that index and the old value elsewhere. -/
@[simp] theorem State.setReg_reg (s : State) (r q : Fin 8) (v : Byte) :
    (s.setReg r v).reg q = if q = r then v else s.reg q := by
  by_cases h : q = r
  · subst h
    simp [State.reg]
  · have hne : r.val ≠ q.val := fun e => h (Fin.ext e.symm)
    simp [State.reg, h, hne]

@[simp] theorem spIndex_eq : spIndex = 7 := rfl

/-- SP is register 7 (`10_state.md` R32). -/
@[simp] theorem State.sp_eq (s : State) : s.sp = s.reg 7 := rfl

@[simp] theorem State.setSp_eq (s : State) (v : Byte) : s.setSp v = s.setReg 7 v := rfl

/-- A push in terms of the register file and Memory: one register update and one store at the same address. -/
@[simp] theorem State.pushByte_eq (s : State) (value : State → Byte) :
    s.pushByte value =
      (s.setReg 7 (spDown (s.reg 7))).writeMem (spDown (s.reg 7)) (value (s.setReg 7 (spDown (s.reg 7)))) := by
  simp [State.pushByte]

/-- Changing the flag alone. -/
@[simp] theorem State.withFlag_reg (s : State) (f : Flag) (q : Fin 8) : ({ s with flag := f } : State).reg q = s.reg q :=
  rfl

/-- `wrap8` as a number. -/
@[simp] theorem wrap8_toNat (v : Nat) : (wrap8 v).toNat = v % 256 := by
  simp [wrap8]

theorem spDown_toNat (b : Byte) : (spDown b).toNat = (b.toNat + 255) % 256 := by
  simp [spDown]

theorem spUp_toNat (b : Byte) : (spUp b).toNat = (b.toNat + 1) % 256 := by
  simp [spUp]

/-- The two stack-pointer steps undo each other, at every value (`43_stack_call.md` R184). -/
@[simp] theorem spUp_spDown (b : Byte) : spUp (spDown b) = b := by
  apply BitVec.eq_of_toNat_eq
  have := b.isLt
  rw [spUp_toNat, spDown_toNat]
  omega

theorem spDown_eq_sub_one (b : Byte) : spDown b = b - 1 := by
  apply BitVec.eq_of_toNat_eq
  have := b.isLt
  rw [spDown_toNat]
  simp
  omega

/-- A fixed increment does not wrap for an instruction that executes (`40_fetch_decode.md` R110). -/
theorem State.advance_pc_toNat (s : State) (n : Nat) (hpc : s.pc.toNat ≤ 255) (hn : n ≤ 3) :
    (s.advance n).pc.toNat = s.pc.toNat + n := by
  simp
  omega

/-- A jump target is an absolute byte address (`44_branch.md` R203). -/
@[simp] theorem State.jump_pc_toNat (s : State) (b : Byte) : ((s.jump b).pc).toNat = b.toNat := by
  have := b.isLt
  simp
  omega

end Sys2Proof.Machine
end

