-- ==== Sys2Proof/Laws/Operands.lean ====
section
/-! SUPPORT. What the register operand forms can do: an operand byte either names a register or raises. -/

namespace Sys2Proof.Machine

/-- A byte of 7 or less is some register's operand byte. -/
theorem exists_regByte {v : Byte} (h : v.toNat ≤ 7) : ∃ r : Fin 8, v = regByte r := by
  refine ⟨⟨v.toNat, by omega⟩, ?_⟩
  simp [regByte]

theorem regByte_toNat (r : Fin 8) : (regByte r).toNat = r.val := by
  have := r.isLt
  simp [regByte]
  omega

theorem regByte_injective {q r : Fin 8} (h : regByte q = regByte r) : q = r := by
  have := congrArg BitVec.toNat h
  rw [regByte_toNat, regByte_toNat] at this
  exact Fin.ext this

@[simp] theorem regByte_inj {q r : Fin 8} : regByte q = regByte r ↔ q = r :=
  ⟨regByte_injective, fun h => h ▸ rfl⟩

/-- `regidx` of a register's byte is that register. -/
@[simp] theorem regidx_regByte (r : Fin 8) : regidx (regByte r) = .ok r := by
  have h := regByte_toNat r
  have := r.isLt
  simp only [regidx, h]
  rw [dif_pos (by omega)]

/-- `regidx` of a byte above 7 raises with the byte (`40_fetch_decode.md` R108). -/
theorem regidx_of_gt {v : Byte} (h : 7 < v.toNat) : regidx v = .error (.outOfBounds .register v.toNat) := by
  simp [regidx, Nat.not_le.mpr h]

@[simp] theorem withReg_regByte (op : Byte) (r : Fin 8) (s : State) (handler : Fin 8 → Result) :
    withReg op (regByte r) s handler = handler r := by
  simp [withReg]

theorem withReg_of_gt (op : Byte) {a : Byte} (s : State) (handler : Fin 8 → Result) (h : 7 < a.toNat) :
    withReg op a s handler = .next (s.raise (some op) (.outOfBounds .register a.toNat)) := by
  simp [withReg, regidx_of_gt h]

/-- Everything one register operand can do. -/
theorem withReg_cases (op a : Byte) (s : State) (handler : Fin 8 → Result) :
    (∃ r : Fin 8, a = regByte r ∧ withReg op a s handler = handler r) ∨
    (7 < a.toNat ∧ withReg op a s handler = .next (s.raise (some op) (.outOfBounds .register a.toNat))) := by
  by_cases h : a.toNat ≤ 7
  · obtain ⟨r, rfl⟩ := exists_regByte h
    exact .inl ⟨r, rfl, by simp⟩
  · exact .inr ⟨Nat.lt_of_not_le h, withReg_of_gt op s handler (Nat.lt_of_not_le h)⟩

@[simp] theorem withRegs_regByte (op : Byte) (ra rb : Fin 8) (s : State) (handler : Fin 8 → Fin 8 → Result) :
    withRegs op (regByte ra) (regByte rb) s handler = handler ra rb := by
  simp [withRegs]

/-- Two operands of which one names no register: `a` is reported before `b` (`40_fetch_decode.md` R109). -/
theorem withRegs_of_gt (op : Byte) {a b : Byte} (s : State) (handler : Fin 8 → Fin 8 → Result)
    (h : 7 < a.toNat ∨ 7 < b.toNat) :
    withRegs op a b s handler =
      .next (s.raise (some op) (.outOfBounds .register (if 7 < a.toNat then a.toNat else b.toNat))) := by
  by_cases ha : 7 < a.toNat
  · simp [withRegs, withReg_of_gt op s _ ha, ha]
  · obtain ⟨ra, rfl⟩ := exists_regByte (Nat.le_of_not_lt ha)
    have hb : 7 < b.toNat := h.resolve_left ha
    rw [if_neg ha]
    simp [withRegs, withReg_of_gt op s _ hb]

/-- Everything two register operands can do. -/
theorem withRegs_cases (op a b : Byte) (s : State) (handler : Fin 8 → Fin 8 → Result) :
    (∃ ra rb : Fin 8, a = regByte ra ∧ b = regByte rb ∧ withRegs op a b s handler = handler ra rb) ∨
    ∃ v : Nat, 7 < v ∧ v ≤ 255 ∧
      withRegs op a b s handler = .next (s.raise (some op) (.outOfBounds .register v)) := by
  by_cases h : 7 < a.toNat ∨ 7 < b.toNat
  · refine .inr ⟨_, ?_, ?_, withRegs_of_gt op s handler h⟩
    · split <;> omega
    · have := a.isLt
      have := b.isLt
      split <;> omega
  · obtain ⟨ra, rfl⟩ := exists_regByte (v := a) (by omega)
    obtain ⟨rb, rfl⟩ := exists_regByte (v := b) (by omega)
    exact .inl ⟨ra, rb, rfl, rfl, by simp⟩

end Sys2Proof.Machine
end

