-- ==== Sys2Proof/Laws/Exec.lean ====
section
/-! SUPPORT. Everything an instruction can do, said once: `exec_effect` gives the one next state of every instruction in
every state. The equations before it are the instructions on operand bytes that name registers. -/

namespace Sys2Proof.Machine

/-- The end of an ALU instruction: the condition or the written output. -/
theorem aluFinish_value (op : Byte) (len : Nat) (ra : Fin 8) (v : Byte) (s : State) :
    aluFinish op len ra (.ok (.value v)) s = .next ((s.setReg ra v).advance len) := rfl

theorem aluFinish_flag (op : Byte) (len : Nat) (ra : Fin 8) (f : Flag) (s : State) :
    aluFinish op len ra (.ok ⟨none, some f⟩) s = .next (({ s with flag := f } : State).advance len) := rfl

theorem aluFinish_error (op : Byte) (len : Nat) (ra : Fin 8) (c : Condition) (s : State) :
    aluFinish op len ra (.error c) s = .next (s.raise (some op) c) := rfl

/-- The two-register form on two registers. -/
@[simp] theorem aluTwo_regByte (sel : AluOp) (op : Byte) (ra rb : Fin 8) (s : State) :
    aluTwo sel op (regByte ra) (regByte rb) s = aluFinish op 3 ra (aluApply sel (s.reg ra) (s.reg rb)) s := by
  simp [aluTwo]

/-- The one-register form on a register. -/
@[simp] theorem aluOne_regByte (sel : AluOp) (op : Byte) (ra : Fin 8) (s : State) :
    aluOne sel op (regByte ra) s = aluFinish op 2 ra (aluApply sel (s.reg ra) 0) s := by
  simp [aluOne]

section Registers
variable (s : State) (ra rb : Fin 8)

theorem exec_hlt : exec .hlt s = .next (s.halt 0x01 .hlt) := rfl

theorem exec_ldi (imm : Byte) : exec (.ldi (regByte ra) imm) s = .next ((s.setReg ra imm).advance 3) := by
  simp [exec, execLdi]

theorem exec_prn : exec (.prn (regByte ra)) s = .next ((s.emit (s.reg ra)).advance 2) := by
  simp [exec, execPrn]

theorem exec_add : exec (.add (regByte ra) (regByte rb)) s =
    .next ((s.setReg ra (wrap8 ((s.reg ra).toNat + (s.reg rb).toNat))).advance 3) := by
  simp [exec, execAdd, aluApply, aluFinish_value]

theorem exec_mul : exec (.mul (regByte ra) (regByte rb)) s =
    .next ((s.setReg ra (wrap8 ((s.reg ra).toNat * (s.reg rb).toNat))).advance 3) := by
  simp [exec, execMul, aluApply, aluFinish_value]

theorem exec_and : exec (.and (regByte ra) (regByte rb)) s =
    .next ((s.setReg ra (s.reg ra &&& s.reg rb)).advance 3) := by
  simp [exec, execAnd, aluApply, aluFinish_value]

theorem exec_or : exec (.or (regByte ra) (regByte rb)) s =
    .next ((s.setReg ra (s.reg ra ||| s.reg rb)).advance 3) := by
  simp [exec, execOr, aluApply, aluFinish_value]

theorem exec_xor : exec (.xor (regByte ra) (regByte rb)) s =
    .next ((s.setReg ra (s.reg ra ^^^ s.reg rb)).advance 3) := by
  simp [exec, execXor, aluApply, aluFinish_value]

theorem exec_not : exec (.not (regByte ra)) s =
    .next ((s.setReg ra (wrap8 (255 - (s.reg ra).toNat))).advance 2) := by
  simp [exec, execNot, aluApply, aluFinish_value]

theorem exec_shl : exec (.shl (regByte ra) (regByte rb)) s =
    .next ((s.setReg ra (wrap8 ((s.reg ra).toNat * 2 ^ (s.reg rb).toNat))).advance 3) := by
  simp [exec, execShl, aluApply, aluFinish_value]

theorem exec_shr : exec (.shr (regByte ra) (regByte rb)) s =
    .next ((s.setReg ra (wrap8 ((s.reg ra).toNat / 2 ^ (s.reg rb).toNat))).advance 3) := by
  simp [exec, execShr, aluApply, aluFinish_value]

theorem exec_mod (h : (s.reg rb).toNat ≠ 0) : exec (.mod (regByte ra) (regByte rb)) s =
    .next ((s.setReg ra (wrap8 ((s.reg ra).toNat % (s.reg rb).toNat))).advance 3) := by
  simp only [exec, execMod, aluTwo_regByte, aluApply, if_neg h, aluFinish_value]

theorem exec_mod_zero (h : (s.reg rb).toNat = 0) : exec (.mod (regByte ra) (regByte rb)) s =
    .next (s.raise (some 0xA4) (.plain .divideOrModuloByZero)) := by
  simp only [exec, execMod, aluTwo_regByte, aluApply, if_pos h, aluFinish_error]
  rfl

theorem exec_cmp : exec (.cmp (regByte ra) (regByte rb)) s =
    .next (({ s with flag := cmpFlag (s.reg ra) (s.reg rb) } : State).advance 3) := by
  simp [exec, execCmp, aluApply, aluFinish_flag]

theorem exec_push : exec (.push (regByte ra)) s =
    .next (((s.setReg 7 (spDown (s.reg 7))).writeMem (spDown (s.reg 7))
      (if ra = 7 then spDown (s.reg 7) else s.reg ra)).advance 2) := by
  simp [exec, execPush]

theorem exec_pop : exec (.pop (regByte ra)) s =
    .next (((s.setReg ra (s.mem.read (s.reg 7))).setReg 7
      (spUp (if ra = 7 then s.mem.read (s.reg 7) else s.reg 7))).advance 2) := by
  simp [exec, execPop, eq_comm]

theorem exec_call (h : s.pc.toNat + 2 ≤ 255) : exec (.call (regByte ra)) s =
    .next (((s.setReg 7 (spDown (s.reg 7))).writeMem (spDown (s.reg 7)) (BitVec.ofNat 8 (s.pc.toNat + 2))).jump
      (if ra = 7 then spDown (s.reg 7) else s.reg ra)) := by
  have h' : ¬255 < s.pc.toNat + 2 := by omega
  simp only [exec, execCall, withReg_regByte, gt_iff_lt, if_neg h', State.pushByte_eq, State.writeMem_reg,
    State.setReg_reg]

theorem exec_call_fault (h : 255 < s.pc.toNat + 2) : exec (.call (regByte ra)) s =
    .next (s.raise (some 0x50) (.outOfBounds .returnAddress (s.pc.toNat + 2))) := by
  simp only [exec, execCall, withReg_regByte, gt_iff_lt, if_pos h]
  rfl

theorem exec_ret : exec .ret s = .next ((s.jump (s.mem.read (s.reg 7))).setReg 7 (spUp (s.reg 7))) := rfl

theorem exec_jmp : exec (.jmp (regByte ra)) s = .next (s.jump (s.reg ra)) := by
  simp [exec, execJmp]

/-- A conditional jump on a readable flag. -/
theorem condJump_of_ok {eq : Bool} (taken : Bool → Bool) (op : Byte)
    (h : flagIsEqual s.cfg.unsetFlagPolicy s.flag = .ok eq) :
    condJump taken op (regByte ra) s = .next (if taken eq then s.jump (s.reg ra) else s.advance 2) := by
  simp [condJump, h]

/-- A conditional jump on an UNSET flag under `fault`. -/
theorem condJump_of_error {c : Condition} (taken : Bool → Bool) (op : Byte)
    (h : flagIsEqual s.cfg.unsetFlagPolicy s.flag = .error c) :
    condJump taken op (regByte ra) s = .next (s.raise (some op) c) := by
  simp [condJump, h]

end Registers

/-- The two readings of the flag: an answer, or FlagUnset exactly for an UNSET flag under `fault`
(`44_branch.md` R204). -/
theorem flagIsEqual_cases (p : UnsetFlagPolicy) (f : Flag) :
    (flagIsEqual p f = .ok (f == .equal) ∧ (f ≠ .unset ∨ p = .notEqual)) ∨
    (flagIsEqual p f = .error (.plain .flagUnset) ∧ f = .unset ∧ p = .fault) := by
  cases f <;> cases p <;> simp [flagIsEqual]

/-- The state a completed instruction or a condition of its own leaves; one constructor per instruction, then the
conditions. -/
inductive Effect (s : State) : Instr → State → Prop
  | hlt : Effect s .hlt (s.halt 0x01 .hlt)
  | ldi (ra : Fin 8) (imm : Byte) : Effect s (.ldi (regByte ra) imm) ((s.setReg ra imm).advance 3)
  | prn (ra : Fin 8) : Effect s (.prn (regByte ra)) ((s.emit (s.reg ra)).advance 2)
  /-- The eight two-register operations with a result: only `x[ra]` and `pc` change. -/
  | aluTwo (mk : Byte → Byte → Instr) (ra rb : Fin 8) (v : Byte)
      (hmk : mk ∈ ([.add, .mul, .and, .or, .xor, .shl, .shr, .mod] : List (Byte → Byte → Instr))) :
      Effect s (mk (regByte ra) (regByte rb)) ((s.setReg ra v).advance 3)
  | not (ra : Fin 8) (v : Byte) : Effect s (.not (regByte ra)) ((s.setReg ra v).advance 2)
  | cmp (ra rb : Fin 8) : Effect s (.cmp (regByte ra) (regByte rb))
      (({ s with flag := cmpFlag (s.reg ra) (s.reg rb) } : State).advance 3)
  | push (ra : Fin 8) (v : Byte) : Effect s (.push (regByte ra))
      (((s.setReg 7 (spDown (s.reg 7))).writeMem (spDown (s.reg 7)) v).advance 2)
  | pop (ra : Fin 8) (v w : Byte) : Effect s (.pop (regByte ra)) (((s.setReg ra v).setReg 7 w).advance 2)
  | call (ra : Fin 8) (v w : Byte) (hpc : s.pc.toNat + 2 ≤ 255) : Effect s (.call (regByte ra))
      (((s.setReg 7 (spDown (s.reg 7))).writeMem (spDown (s.reg 7)) v).jump w)
  | ret (v w : Byte) : Effect s .ret ((s.jump v).setReg 7 w)
  | jmp (ra : Fin 8) : Effect s (.jmp (regByte ra)) (s.jump (s.reg ra))
  /-- JEQ or JNE, taken. -/
  | taken (mk : Byte → Instr) (ra : Fin 8) (hmk : mk = .jeq ∨ mk = .jne) : Effect s (mk (regByte ra)) (s.jump (s.reg ra))
  /-- JEQ or JNE, not taken. -/
  | notTaken (mk : Byte → Instr) (ra : Fin 8) (hmk : mk = .jeq ∨ mk = .jne) : Effect s (mk (regByte ra)) (s.advance 2)
  | modZero (ra rb : Fin 8) (h : (s.reg rb).toNat = 0) : Effect s (.mod (regByte ra) (regByte rb))
      (s.raise (some 0xA4) (.plain .divideOrModuloByZero))
  | callFault (ra : Fin 8) (h : 255 < s.pc.toNat + 2) : Effect s (.call (regByte ra))
      (s.raise (some 0x50) (.outOfBounds .returnAddress (s.pc.toNat + 2)))
  | flagUnset (mk : Byte → Instr) (ra : Fin 8) (hmk : mk = .jeq ∨ mk = .jne) (hf : s.flag = .unset)
      (hp : s.cfg.unsetFlagPolicy = .fault) : Effect s (mk (regByte ra))
      (s.raise (some (mk (regByte ra)).opcode) (.plain .flagUnset))
  | badRegister (i : Instr) (v : Nat) (hv : 7 < v) (hv' : v ≤ 255) :
      Effect s i (s.raise (some i.opcode) (.outOfBounds .register v))

/-- An instruction of one register operand, split by what the operand byte names. -/
theorem one_operand {s : State} {op a : Byte} {handler : Fin 8 → Result} {i : Instr} (hop : i.opcode = op)
    (hi : exec i s = withReg op a s handler)
    (hgood : ∀ ra, a = regByte ra → ∃ t, handler ra = .next t ∧ Effect s i t) : ∃ t, exec i s = .next t ∧ Effect s i t := by
  subst hop
  rcases withReg_cases i.opcode a s handler with ⟨ra, ha, h⟩ | ⟨hv, h⟩
  · obtain ⟨t, ht, he⟩ := hgood ra ha
    exact ⟨t, by rw [hi, h, ht], he⟩
  · exact ⟨_, by rw [hi, h], Effect.badRegister i _ hv (by have := a.isLt; omega)⟩

/-- A two-register ALU instruction, split by what the operand bytes name. -/
theorem two_operands {s : State} {sel : AluOp} {op a b : Byte} {i : Instr} (hop : i.opcode = op)
    (hi : exec i s = aluTwo sel op a b s)
    (hgood : ∀ ra rb, a = regByte ra → b = regByte rb →
      ∃ t, aluFinish op 3 ra (aluApply sel (s.reg ra) (s.reg rb)) s = .next t ∧ Effect s i t) :
    ∃ t, exec i s = .next t ∧ Effect s i t := by
  subst hop
  rcases withRegs_cases i.opcode a b s (fun ra rb => aluFinish i.opcode 3 ra (aluApply sel (s.reg ra) (s.reg rb)) s) with
    ⟨ra, rb, ha, hb, h⟩ | ⟨v, hv, hv', h⟩
  · obtain ⟨t, ht, he⟩ := hgood ra rb ha hb
    exact ⟨t, by rw [hi]; exact h.trans ht, he⟩
  · exact ⟨_, by rw [hi]; exact h, Effect.badRegister i _ hv hv'⟩

/-- Everything an instruction can do: it always has exactly one next state, and `Effect` says which. -/
theorem exec_effect (i : Instr) (s : State) : ∃ t, exec i s = .next t ∧ Effect s i t := by
  have cond : ∀ (mk : Byte → Instr) (taken : Bool → Bool) (ra : Fin 8), mk = .jeq ∨ mk = .jne →
      (∀ op, op = (mk (regByte ra)).opcode → ∃ t, condJump taken op (regByte ra) s = .next t ∧
        Effect s (mk (regByte ra)) t) := by
    rintro mk taken ra hmk op rfl
    rcases flagIsEqual_cases s.cfg.unsetFlagPolicy s.flag with ⟨h, _⟩ | ⟨h, hf, hp⟩
    · refine ⟨_, condJump_of_ok s ra taken _ h, ?_⟩
      split
      · exact .taken mk ra hmk
      · exact .notTaken mk ra hmk
    · exact ⟨_, condJump_of_error s ra taken _ h, .flagUnset mk ra hmk hf hp⟩
  cases i with
  | hlt => exact ⟨_, exec_hlt s, .hlt⟩
  | ldi a imm => exact one_operand rfl rfl fun ra ha => ha ▸ ⟨_, rfl, .ldi ra imm⟩
  | prn a => exact one_operand rfl rfl fun ra ha => ha ▸ ⟨_, rfl, .prn ra⟩
  | add a b => exact two_operands rfl rfl fun ra rb ha hb => ha ▸ hb ▸ ⟨_, rfl, .aluTwo .add ra rb _ (by simp)⟩
  | mul a b => exact two_operands rfl rfl fun ra rb ha hb => ha ▸ hb ▸ ⟨_, rfl, .aluTwo .mul ra rb _ (by simp)⟩
  | and a b => exact two_operands rfl rfl fun ra rb ha hb => ha ▸ hb ▸ ⟨_, rfl, .aluTwo .and ra rb _ (by simp)⟩
  | or a b => exact two_operands rfl rfl fun ra rb ha hb => ha ▸ hb ▸ ⟨_, rfl, .aluTwo .or ra rb _ (by simp)⟩
  | xor a b => exact two_operands rfl rfl fun ra rb ha hb => ha ▸ hb ▸ ⟨_, rfl, .aluTwo .xor ra rb _ (by simp)⟩
  | shl a b => exact two_operands rfl rfl fun ra rb ha hb => ha ▸ hb ▸ ⟨_, rfl, .aluTwo .shl ra rb _ (by simp)⟩
  | shr a b => exact two_operands rfl rfl fun ra rb ha hb => ha ▸ hb ▸ ⟨_, rfl, .aluTwo .shr ra rb _ (by simp)⟩
  | cmp a b => exact two_operands rfl rfl fun ra rb ha hb => ha ▸ hb ▸ ⟨_, rfl, .cmp ra rb⟩
  | mod a b =>
    refine two_operands rfl rfl fun ra rb ha hb => ?_
    subst ha hb
    by_cases h : (s.reg rb).toNat = 0
    · exact ⟨_, by simp only [aluApply, if_pos h, aluFinish_error]; rfl, .modZero ra rb h⟩
    · exact ⟨_, by simp only [aluApply, if_neg h, aluFinish_value]; rfl, .aluTwo .mod ra rb _ (by simp)⟩
  | not a => exact one_operand rfl rfl fun ra ha => ha ▸ ⟨_, rfl, .not ra _⟩
  | push a => exact one_operand rfl rfl fun ra ha => ha ▸ ⟨_, by rw [State.pushByte_eq], .push ra _⟩
  | pop a => exact one_operand rfl rfl fun ra ha => ha ▸ ⟨_, rfl, .pop ra _ _⟩
  | call a =>
    refine one_operand rfl rfl fun ra ha => ?_
    subst ha
    by_cases h : 255 < s.pc.toNat + 2
    · exact ⟨_, by simp only [gt_iff_lt, if_pos h]; rfl, .callFault ra h⟩
    · exact ⟨_, by simp only [gt_iff_lt, if_neg h, State.pushByte_eq]; rfl, .call ra _ _ (by omega)⟩
  | ret => exact ⟨_, exec_ret s, .ret _ _⟩
  | jmp a => exact one_operand rfl rfl fun ra ha => ha ▸ ⟨_, rfl, .jmp ra⟩
  | jeq a =>
    rcases withReg_cases (Instr.jeq a).opcode a s (fun ra => condJump (fun eq => eq) (Instr.jeq a).opcode (regByte ra) s) with
      ⟨ra, rfl, _⟩ | ⟨hv, _⟩
    · exact cond .jeq _ ra (.inl rfl) _ rfl
    · exact ⟨_, withReg_of_gt _ s _ hv, .badRegister _ _ hv (by have := a.isLt; omega)⟩
  | jne a =>
    rcases withReg_cases (Instr.jne a).opcode a s (fun ra => condJump (fun eq => !eq) (Instr.jne a).opcode (regByte ra) s) with
      ⟨ra, rfl, _⟩ | ⟨hv, _⟩
    · exact cond .jne _ ra (.inr rfl) _ rfl
    · exact ⟨_, withReg_of_gt _ s _ hv, .badRegister _ _ hv (by have := a.isLt; omega)⟩

end Sys2Proof.Machine
end

