-- ==== Sys2Proof/Laws/Memory.lean ====
section
/-! SUPPORT. The laws of Memory: every operation keeps the canonical form, and a read gives the most recent write
(`00_scope.md` R14). -/

namespace Sys2Proof.Machine

/-- The reset memory lists nothing. -/
theorem Memory.wf_nil : Memory.wf [] := by simp [Memory.wf]

theorem Memory.wf_cons {c : Host.Cell} {m : Memory} :
    Memory.wf (c :: m) ↔ (∀ d ∈ m, c.1 < d.1) ∧ c.1 ≤ 255 ∧ c.2 ≠ Memory.resetByte ∧ Memory.wf m := by
  simp only [Memory.wf, List.pairwise_cons, List.mem_cons, forall_eq_or_imp]
  tauto

/-- Every entry of a store comes from the memory or is the stored cell. -/
theorem Memory.mem_store {m : Memory} {a : Nat} {b : Byte} {c : Host.Cell} (h : c ∈ Memory.store m a b) :
    c ∈ m ∨ c = (a, b) := by
  induction m with
  | nil =>
    simp only [Memory.store] at h
    split at h <;> simp_all
  | cons d m ih =>
    simp only [Memory.store] at h
    split at h
    · split at h <;> simp_all
      tauto
    · split at h
      · split at h <;> simp_all
        tauto
      · rcases List.mem_cons.mp h with h | h
        · simp [h]
        · rcases ih h with h | h <;> simp [h]

/-- A store keeps the canonical form. -/
theorem Memory.wf_store {m : Memory} (h : m.wf) {a : Nat} (ha : a ≤ 255) (b : Byte) : (Memory.store m a b).wf := by
  induction m with
  | nil =>
    simp only [Memory.store]
    split <;> simp_all [Memory.wf]
  | cons d m ih =>
    obtain ⟨hd, hk, hv, hm⟩ := Memory.wf_cons.mp h
    simp only [Memory.store]
    split
    · rename_i hlt
      split
      · exact h
      · rename_i hb
        refine Memory.wf_cons.mpr ⟨fun c hc => ?_, ha, hb, h⟩
        rcases List.mem_cons.mp hc with rfl | hc
        · exact hlt
        · exact lt_trans hlt (hd c hc)
    · split
      · rename_i heq
        split
        · exact hm
        · rename_i hb
          exact Memory.wf_cons.mpr ⟨fun c hc => by simpa [heq] using hd c hc, ha, hb, hm⟩
      · rename_i hlt hne
        refine Memory.wf_cons.mpr ⟨fun c hc => ?_, hk, hv, ih hm⟩
        rcases Memory.mem_store hc with hc | rfl
        · exact hd c hc
        · show d.1 < a
          omega

/-- An address below every entry reads as the reset contents. -/
theorem Memory.lookup_below {m : Memory} {a : Nat} (h : ∀ c ∈ m, a < c.1) : m.lookup a = Memory.resetByte := by
  induction m with
  | nil => rfl
  | cons d m ih =>
    have := h d (by simp)
    simp only [Memory.lookup]
    rw [if_neg (by omega)]
    exact ih fun c hc => h c (by simp [hc])

/-- A store leaves every other address alone. -/
theorem Memory.lookup_store_other (m : Memory) {a c : Nat} (b : Byte) (h : c ≠ a) :
    (Memory.store m a b).lookup c = m.lookup c := by
  induction m with
  | nil =>
    simp only [Memory.store]
    split <;> simp [Memory.lookup, h]
  | cons d m ih =>
    simp only [Memory.store]
    split
    · split <;> simp [Memory.lookup, h]
    · split
      · rename_i heq
        have : c ≠ d.1 := heq ▸ h
        split <;> simp [Memory.lookup, h, this]
      · simp [Memory.lookup, ih]

/-- A read of the stored address gives the stored byte. -/
theorem Memory.lookup_store_same {m : Memory} (hm : m.wf) (a : Nat) (b : Byte) :
    (Memory.store m a b).lookup a = b := by
  induction m with
  | nil =>
    simp only [Memory.store]
    split <;> simp_all [Memory.lookup]
  | cons d m ih =>
    obtain ⟨hd, _, _, hm'⟩ := Memory.wf_cons.mp hm
    simp only [Memory.store]
    split
    · rename_i hlt
      split
      · rename_i hb
        rw [hb]
        refine Memory.lookup_below fun c hc => ?_
        rcases List.mem_cons.mp hc with rfl | hc
        · exact hlt
        · exact lt_trans hlt (hd c hc)
      · simp [Memory.lookup]
    · split
      · rename_i heq
        split
        · rename_i hb
          rw [hb]
          exact Memory.lookup_below fun c hc => heq ▸ hd c hc
        · simp [Memory.lookup]
      · rename_i hlt hne
        simp [Memory.lookup, hne, ih hm']

/-- A write keeps the canonical form. -/
theorem Memory.wf_write {m : Memory} (h : m.wf) (a v : Byte) : (m.write a v).wf :=
  Memory.wf_store h (by have := a.isLt; omega) v

theorem Memory.read_write_other (m : Memory) {a c : Byte} (v : Byte) (h : c ≠ a) :
    (m.write a v).read c = m.read c :=
  Memory.lookup_store_other m v fun e => h (BitVec.eq_of_toNat_eq e)

theorem Memory.read_write_same {m : Memory} (h : m.wf) (a v : Byte) : (m.write a v).read a = v :=
  Memory.lookup_store_same h a.toNat v

/-- Reading at a number that is a byte address. -/
theorem Memory.readAt_of_le (m : Memory) {t : Nat} (h : t ≤ 255) : m.readAt t = some (m.read (BitVec.ofNat 8 t)) := by
  simp [Memory.readAt, h]

/-- There is no byte above 255. -/
theorem Memory.readAt_of_gt (m : Memory) {t : Nat} (h : 255 < t) : m.readAt t = none := by
  simp [Memory.readAt, Nat.not_le.mpr h]

theorem Memory.le_of_readAt {m : Memory} {t : Nat} {b : Byte} (h : m.readAt t = some b) : t ≤ 255 := by
  by_contra hc
  simp [Memory.readAt_of_gt m (Nat.lt_of_not_le hc)] at h

/-- Loading an image that ends at or below 256 keeps the canonical form. -/
theorem Memory.wf_load (bs : List Byte) (k : Nat) (m : Memory) (hm : m.wf) (hk : k + bs.length ≤ 256) :
    (Memory.load k bs m).wf := by
  induction bs generalizing k m with
  | nil => exact hm
  | cons b bs ih =>
    simp only [List.length_cons] at hk
    exact ih (k + 1) (m.store k b) (Memory.wf_store hm (by omega) b) (by omega)

/-- Memory has the canonical form at reset. -/
theorem State.reset_mem_wf : State.reset.mem.wf := Memory.wf_nil

/-- What an image leaves: its byte at the addresses it covers, the old byte elsewhere. -/
theorem Memory.lookup_load (bs : List Byte) (k : Nat) (m : Memory) (hm : m.wf) (hk : k + bs.length ≤ 256) (a : Nat) :
    (Memory.load k bs m).lookup a = if k ≤ a then (bs[a - k]?).getD (m.lookup a) else m.lookup a := by
  induction bs generalizing k m with
  | nil => simp [Memory.load]
  | cons b bs ih =>
    simp only [List.length_cons] at hk
    have hrec := ih (k + 1) (m.store k b) (Memory.wf_store hm (by omega) b) (by omega)
    simp only [Memory.load, hrec]
    by_cases hka : k = a
    · subst hka
      simp [Memory.lookup_store_same hm]
    · rw [Memory.lookup_store_other m b (fun e => hka e.symm)]
      by_cases hle : k ≤ a
      · have h1 : k + 1 ≤ a := by omega
        obtain ⟨j, rfl⟩ : ∃ j, a = k + 1 + j := ⟨a - (k + 1), by omega⟩
        have h2 : k + 1 + j - k = j + 1 := by omega
        simp [hle, h2]
      · have h1 : ¬k + 1 ≤ a := by omega
        simp [hle, h1]

end Sys2Proof.Machine
end

