-- ==== Sys2Proof/Laws/Fetch.lean ====
section
/-! SUPPORT. Everything a step can do, said once: `step_next` lists the five ways a step reaches its next state, in the
order of `40_fetch_decode.md` R113. -/

namespace Sys2Proof.Machine

/-- The bytes at consecutive addresses from `t` on are those of a list. -/
def BytesAt (m : Memory) (t : Nat) (bs : List Byte) : Prop :=
  ∀ (k : Nat) (b : Byte), bs[k]? = some b → m.readAt (t + k) = some b

theorem BytesAt.cons {m : Memory} {t : Nat} {b : Byte} {bs : List Byte} :
    BytesAt m t (b :: bs) ↔ m.readAt t = some b ∧ BytesAt m (t + 1) bs := by
  constructor
  · intro h
    refine ⟨by simpa using h 0 b rfl, fun k c hk => ?_⟩
    simpa [Nat.add_assoc, Nat.add_comm 1 k] using h (k + 1) c (by simpa using hk)
  · rintro ⟨h0, h1⟩ k c hk
    cases k with
    | zero =>
      simp only [List.getElem?_cons_zero, Option.some.injEq] at hk
      simpa [hk] using h0
    | succ k => simpa [Nat.add_assoc, Nat.add_comm 1 k] using h1 k c (by simpa using hk)

theorem BytesAt.nil (m : Memory) (t : Nat) : BytesAt m t [] := by
  intro k b h
  simp at h

theorem BytesAt.of_append {m : Memory} {t : Nat} {bs cs : List Byte} (h : BytesAt m t (bs ++ cs)) : BytesAt m t bs := by
  intro k b hk
  refine h k b ?_
  have hlt : k < bs.length := (List.getElem?_eq_some_iff.mp hk).1
  rw [List.getElem?_append_left hlt, hk]

/-- A lookahead inside Memory is the byte there (`40_fetch_decode.md` R102). -/
theorem look_of_le (s : State) {t : Nat} (h : t ≤ 255) : look s t = .ok (s.mem.readAt t) := by
  simp [look, Memory.readAt_of_le s.mem h]

theorem look_inert (s : State) (t : Nat) (h : s.cfg.lookaheadOob = .inert) : look s t = .ok (s.mem.readAt t) := by
  unfold look
  cases s.mem.readAt t <;> simp [h]

theorem look_fault (s : State) {t : Nat} (h : s.cfg.lookaheadOob = .fault) (ht : 255 < t) :
    look s t = .error (.outOfBounds .lookahead t) := by
  simp [look, Memory.readAt_of_gt s.mem ht, h]

/-- The bytes a fetch that raises nothing hands to the decoder: those at `pc` to `pc + 2` that exist. -/
def State.fetchBytes (s : State) (op : Byte) : List Byte :=
  op :: ((s.mem.readAt (s.pc.toNat + 1)).toList ++ (s.mem.readAt (s.pc.toNat + 2)).toList)

theorem fetchBytes_at {s : State} {op : Byte} (h : s.mem.readAt s.pc.toNat = some op) :
    BytesAt s.mem s.pc.toNat (s.fetchBytes op) := by
  rw [State.fetchBytes, BytesAt.cons]
  refine ⟨h, ?_⟩
  by_cases h1 : s.pc.toNat + 1 ≤ 255
  · rw [Memory.readAt_of_le _ h1]
    simp only [Option.toList, List.cons_append, List.nil_append]
    rw [BytesAt.cons]
    refine ⟨Memory.readAt_of_le _ h1, ?_⟩
    by_cases h2 : s.pc.toNat + 2 ≤ 255
    · rw [Memory.readAt_of_le _ h2]
      exact BytesAt.cons.mpr ⟨Memory.readAt_of_le _ h2, BytesAt.nil _ _⟩
    · rw [Memory.readAt_of_gt _ (by omega)]
      exact BytesAt.nil _ _
  · rw [Memory.readAt_of_gt _ (by omega), Memory.readAt_of_gt _ (by omega)]
    exact BytesAt.nil _ _

/-- How many bytes exist. -/
theorem fetchBytes_length (s : State) (op : Byte) (h : s.pc.toNat ≤ 255) :
    (s.fetchBytes op).length = min 3 (256 - s.pc.toNat) := by
  unfold State.fetchBytes Memory.readAt
  split <;> split <;> simp <;> omega

/-- The fetch when no lookahead raises: the policy is inert, or all three bytes exist. -/
theorem fetch_ok {s : State} {op : Byte} (h : s.mem.readAt s.pc.toNat = some op)
    (hl : s.cfg.lookaheadOob = .inert ∨ s.pc.toNat + 2 ≤ 255) :
    fetch s = .ok ⟨op, s.mem.readAt (s.pc.toNat + 1), s.mem.readAt (s.pc.toNat + 2)⟩ := by
  have h1 : look s (s.pc.toNat + 1) = .ok (s.mem.readAt (s.pc.toNat + 1)) :=
    hl.elim (look_inert s _) fun h => look_of_le s (by omega)
  have h2 : look s (s.pc.toNat + 2) = .ok (s.mem.readAt (s.pc.toNat + 2)) :=
    hl.elim (look_inert s _) fun h => look_of_le s (by omega)
  simp [fetch, h, lookahead, h1, h2]

/-- The fetch when the lookahead raises: the lowest address above 255 is 256 (`40_fetch_decode.md` R103). -/
theorem fetch_lookahead_fault {s : State} {op : Byte} (h : s.mem.readAt s.pc.toNat = some op)
    (hl : s.cfg.lookaheadOob = .fault) (hpc : 254 ≤ s.pc.toNat) :
    fetch s = .error (s.raise (some op) (.outOfBounds .lookahead 256)) := by
  have hle := Memory.le_of_readAt h
  have hcases : s.pc.toNat = 254 ∨ s.pc.toNat = 255 := by omega
  rcases hcases with hp | hp
  · have h1 : look s 255 = .ok (s.mem.readAt 255) := look_of_le s (by omega)
    have h2 : look s 256 = .error (.outOfBounds .lookahead 256) := look_fault s hl (by omega)
    rw [hp] at h
    simp [fetch, lookahead, hp, h, h1, h2]
  · have h1 : look s 256 = .error (.outOfBounds .lookahead 256) := look_fault s hl (by omega)
    rw [hp] at h
    simp [fetch, lookahead, hp, h, h1]

theorem fetch_range_fault {s : State} (h : 255 < s.pc.toNat) :
    fetch s = .error (s.raise none (.outOfBounds .fetch s.pc.toNat)) := by
  simp [fetch, Memory.readAt_of_gt s.mem h]

/-- A step of a RUNNING core after a fetch that raises nothing is the decoder's answer acted on. -/
theorem step_of_fetch {s : State} {op : Byte} (hr : s.run = .running) (h : s.mem.readAt s.pc.toNat = some op)
    (hl : s.cfg.lookaheadOob = .inert ∨ s.pc.toNat + 2 ≤ 255) :
    step s =
      match decode s.cfg.extAluOpcodes (s.fetchBytes op) with
      | .error (.unknownOpcode op') => .next (s.halt op' .unknownOpcode)
      | .error (.truncated k) => .next (s.raise (some op) (.outOfBounds .operand (s.pc.toNat + k)))
      | .ok (i, _) => exec i s := by
  simp only [step, hr, fetchInstr, fetch_ok h hl, decodeFetched, Fetched.bytes, State.fetchBytes]
  split <;> split <;> simp_all

/-- Placing bytes keeps the canonical form, wherever they are placed. -/
theorem State.place_wf {s : State} (h : s.mem.wf) (k : Nat) (bs : List Byte) : (s.place k bs).mem.wf := by
  by_cases hk : k ≤ 256
  · exact Memory.wf_load _ k s.mem h (by rw [List.length_take]; omega)
  · have h0 : 256 - k = 0 := by omega
    simpa [State.place, h0, Memory.load] using h

/-- The five ways a step reaches its next state, in the order of `40_fetch_decode.md` R113. -/
inductive StepEffect (s : State) : State → Prop
  /-- R101. -/
  | fetchFault (hpc : 255 < s.pc.toNat) : StepEffect s (s.raise none (.outOfBounds .fetch s.pc.toNat))
  /-- R103. -/
  | lookaheadFault (op : Byte) (hop : s.mem.readAt s.pc.toNat = some op) (hl : s.cfg.lookaheadOob = .fault)
      (hpc : 254 ≤ s.pc.toNat) : StepEffect s (s.raise (some op) (.outOfBounds .lookahead 256))
  /-- R106. -/
  | unknown (op : Byte) (hop : s.mem.readAt s.pc.toNat = some op)
      (hm : Mnemonic.ofOpcode s.cfg.extAluOpcodes op = none) : StepEffect s (s.halt op .unknownOpcode)
  /-- R104. -/
  | operandFault (m : Mnemonic) (hop : s.mem.readAt s.pc.toNat = some m.row.opcode)
      (hlen : 256 < s.pc.toNat + m.row.format.length) :
      StepEffect s (s.raise (some m.row.opcode) (.outOfBounds .operand 256))
  /-- R107. -/
  | instr (i : Instr) (t : State) (hbytes : BytesAt s.mem s.pc.toNat (encode i))
      (hlen : s.pc.toNat + i.length ≤ 256) (hext : i.optional = true → s.cfg.extAluOpcodes = true)
      (ht : exec i s = .next t) : StepEffect s t

/-- Everything a step can do. -/
theorem step_next {s t : State} (h : step s = .next t) : s.run = .running ∧ StepEffect s t := by
  have hr : s.run = .running := by
    cases hrun : s.run with
    | running => rfl
    | halted | faulted => simp [step, hrun] at h
  refine ⟨hr, ?_⟩
  by_cases hpc : s.pc.toNat ≤ 255
  swap
  · have hpc' := Nat.lt_of_not_le hpc
    simp only [step, hr, fetchInstr, fetch_range_fault hpc', Host.Outcome.next.injEq] at h
    exact h ▸ .fetchFault hpc'
  obtain ⟨op, hop⟩ : ∃ op, s.mem.readAt s.pc.toNat = some op := ⟨_, Memory.readAt_of_le _ hpc⟩
  by_cases hl : s.cfg.lookaheadOob = .inert ∨ s.pc.toNat + 2 ≤ 255
  swap
  · have hlf : s.cfg.lookaheadOob = .fault := by
      cases hc : s.cfg.lookaheadOob
      · exact absurd (.inl hc) hl
      · rfl
    have hpc' : 254 ≤ s.pc.toNat := by omega
    simp only [step, hr, fetchInstr, fetch_lookahead_fault hop hlf hpc', Host.Outcome.next.injEq] at h
    exact h ▸ .lookaheadFault op hop hlf hpc'
  rw [step_of_fetch hr hop hl] at h
  have hat := fetchBytes_at hop
  have hlen := fetchBytes_length s op hpc
  simp only [State.fetchBytes, decode] at h hat hlen
  cases hm : Mnemonic.ofOpcode s.cfg.extAluOpcodes op with
  | none =>
    simp only [hm, Host.Outcome.next.injEq] at h
    exact h ▸ .unknown op hop hm
  | some m =>
    obtain ⟨rfl, hext⟩ := Mnemonic.ofOpcode_eq_some.mp hm
    simp only [hm] at h
    generalize hbs : (s.mem.readAt (s.pc.toNat + 1)).toList ++ (s.mem.readAt (s.pc.toNat + 2)).toList = bs at h hat hlen
    simp only [List.length_cons] at hlen
    cases hp : m.parse bs with
    | error e =>
      obtain ⟨hlt, rfl⟩ := Mnemonic.parse_eq_error.mp hp
      have hml : m.row.format.length ≤ 3 := by cases m <;> simp [Mnemonic.row, Format.length]
      have hval : s.pc.toNat + (bs.length + 1) = 256 := by omega
      simp only [hp, hval, Host.Outcome.next.injEq] at h
      exact h ▸ .operandFault m hop (by omega)
    | ok p =>
      obtain ⟨i, rest⟩ := p
      obtain ⟨rfl, rfl⟩ := Mnemonic.parse_eq_ok.mp hp
      simp only [hp] at h
      have hi := Instr.operandBytes_length i
      refine .instr i t (BytesAt.of_append (cs := rest) ?_) ?_ hext h
      · simpa [encode, Instr.opcode] using hat
      · simp only [List.length_append] at hlen
        omega

end Sys2Proof.Machine
end

