-- ==== Sys2Proof/Laws/PerInstr.lean ====
section
/-! SUPPORT. Facts about every instruction as syntax, one lemma per constructor. -/

/-- Family EncodedLength: an instruction encodes in as many bytes as its format says, one more than its operand bytes
(`30_encoding.md` R80), and the top two bits of its opcode byte count those operand bytes (R82). -/
def Sys2Proof.Laws.EncodedLength.Statement (i : Sys2Proof.Instr) : Prop :=
  (Sys2Proof.encode i).length = i.length ∧ i.opcode.toNat / 64 + 1 = i.length ∧ i.length ≤ 3

namespace Sys2Proof.Laws.EncodedLength

/-- The opcode map's part of the statement, row by row. -/
theorem row_length (m : Mnemonic) :
    m.row.opcode.toNat / 64 + 1 = m.row.format.length ∧ m.row.format.length ≤ 3 := by
  cases m <;> decide

/-- An instruction's statement from its row. -/
theorem of_row (i : Instr) : Statement i :=
  ⟨i.operandBytes_length, (row_length i.mnemonic).1, (row_length i.mnemonic).2⟩

theorem hlt : Statement .hlt := of_row _

theorem ldi (a b : Byte) : Statement (.ldi a b) := of_row _

theorem prn (a : Byte) : Statement (.prn a) := of_row _

theorem add (a b : Byte) : Statement (.add a b) := of_row _

theorem mul (a b : Byte) : Statement (.mul a b) := of_row _

theorem push (a : Byte) : Statement (.push a) := of_row _

theorem pop (a : Byte) : Statement (.pop a) := of_row _

theorem call (a : Byte) : Statement (.call a) := of_row _

theorem ret : Statement .ret := of_row _

theorem cmp (a b : Byte) : Statement (.cmp a b) := of_row _

theorem jmp (a : Byte) : Statement (.jmp a) := of_row _

theorem jeq (a : Byte) : Statement (.jeq a) := of_row _

theorem jne (a : Byte) : Statement (.jne a) := of_row _

theorem and (a b : Byte) : Statement (.and a b) := of_row _

theorem or (a b : Byte) : Statement (.or a b) := of_row _

theorem xor (a b : Byte) : Statement (.xor a b) := of_row _

theorem not (a : Byte) : Statement (.not a) := of_row _

theorem shl (a b : Byte) : Statement (.shl a b) := of_row _

theorem shr (a b : Byte) : Statement (.shr a b) := of_row _

theorem mod (a b : Byte) : Statement (.mod a b) := of_row _

end Sys2Proof.Laws.EncodedLength
end

