-- ==== Sys2Proof/Tests/Slice0.lean ====
section
/-! SUPPORT. The model's own tests. Expected results come from the spec: the encoding tables of `30_encoding.md`, and the
vectors of `95_test_vectors.md`, whose ids stand in the docstrings. At the end, a witness for the hypotheses of every
statement that has some. -/

namespace Sys2Proof.Tests

open Sys2Proof.Machine

/-- The reset state with bytes at address 0, values in R0 and R1, and the optional set on. -/
def machine (bytes : List Byte) (x0 x1 : Byte) : State :=
  { State.reset with
    x := #v[x0, x1, 0, 0, 0, 0, 0, 0xF4]
    mem := Memory.load 0 bytes []
    cfg := { Config.default with extAluOpcodes := true } }

/-- The reset state with bytes at an address where `pc` stands. -/
def machineAt (pc : Nat) (bytes : List Byte) : State :=
  { State.reset with pc := BitVec.ofNat 9 pc, mem := Memory.load pc bytes [] }

/-- The same under `LOOKAHEAD_OOB = fault`. -/
def strictAt (pc : Nat) (bytes : List Byte) : State :=
  { machineAt pc bytes with cfg := { Config.default with lookaheadOob := .fault } }

/-- The next state, or the state itself where there is none. -/
def after (s : State) : State :=
  match step s with
  | .next t => t
  | .fault _ | .refused _ => s

/-- Whether there is a next state. -/
def steps (s : State) : Bool :=
  match step s with
  | .next _ => true
  | .fault _ | .refused _ => false

/-- Outcomes have no decidable equality, so a step to a next state is checked through `steps`. -/
theorem next_after {s : State} (h : steps s = true) : step s = .next (after s) := by
  unfold steps at h
  unfold after
  split at h
  · rename_i t ht
    simp [ht]
  · cases h
  · cases h

/-! ## WellFormed refuses an ill-formed term for each check -/

theorem test_wellFormed_refuses_a : (Instr.prn 8).wellFormed = false := by decide
theorem test_wellFormed_refuses_a_of_two : (Instr.add 9 0).wellFormed = false := by decide
theorem test_wellFormed_refuses_b : (Instr.add 0 9).wellFormed = false := by decide
theorem test_wellFormed_ignores_immediate : (Instr.ldi 7 255).wellFormed = true := by decide

/-! ## Every constructor decodes from its word, written from R81, R85 and R86 -/

theorem test_decode_hlt : decode false [0b00000001] = .ok (.hlt, []) := by decide
theorem test_decode_ldi : decode false [0b10000010, 0b00000011, 0b11111111] = .ok (.ldi 3 255, []) := by decide
theorem test_decode_prn : decode false [0b01000111, 0b00000110] = .ok (.prn 6, []) := by decide
theorem test_decode_add : decode false [0b10100000, 0b00000001, 0b00000010] = .ok (.add 1 2, []) := by decide
theorem test_decode_mul : decode false [0b10100010, 0b00000001, 0b00000010] = .ok (.mul 1 2, []) := by decide
theorem test_decode_push : decode false [0b01000101, 0b00000101] = .ok (.push 5, []) := by decide
theorem test_decode_pop : decode false [0b01000110, 0b00000101] = .ok (.pop 5, []) := by decide
theorem test_decode_call : decode false [0b01010000, 0b00000001] = .ok (.call 1, []) := by decide
theorem test_decode_ret : decode false [0b00010001, 0b01000101] = .ok (.ret, [0b01000101]) := by decide
theorem test_decode_cmp : decode false [0b10100111, 0b00000001, 0b00000010] = .ok (.cmp 1 2, []) := by decide
theorem test_decode_jmp : decode false [0b01010100, 0b00000100] = .ok (.jmp 4, []) := by decide
theorem test_decode_jeq : decode false [0b01010101, 0b00000100] = .ok (.jeq 4, []) := by decide
theorem test_decode_jne : decode false [0b01010110, 0b00000100] = .ok (.jne 4, []) := by decide
theorem test_decode_and : decode true [0b10101000, 0b00000001, 0b00000010] = .ok (.and 1 2, []) := by decide
theorem test_decode_or : decode true [0b10101010, 0b00000001, 0b00000010] = .ok (.or 1 2, []) := by decide
theorem test_decode_xor : decode true [0b10101011, 0b00000001, 0b00000010] = .ok (.xor 1 2, []) := by decide
theorem test_decode_not : decode true [0b01101001, 0b00000011] = .ok (.not 3, []) := by decide
theorem test_decode_shl : decode true [0b10101100, 0b00000001, 0b00000010] = .ok (.shl 1 2, []) := by decide
theorem test_decode_shr : decode true [0b10101101, 0b00000001, 0b00000010] = .ok (.shr 1 2, []) := by decide
theorem test_decode_mod : decode true [0b10100100, 0b00000001, 0b00000010] = .ok (.mod 1 2, []) := by decide
theorem test_decode_refuses_zero : decode true [0b00000000] = .error (.unknownOpcode 0) := by decide
/-- V-F3. -/
theorem test_decode_refuses_and_when_off : decode false [0xA8, 0, 1] = .error (.unknownOpcode 0xA8) := by decide
theorem test_decodeTableWord : decodeTableWord 24 0x0201A0 = some (.add 1 2) := by decide

/-! ## Fetch, decode, HLT (section 2.1 of the vectors) -/

/-- V-F4. -/
theorem test_hlt_stops : after (machineAt 0 [0x01]) =
    { machineAt 0 [0x01] with run := .halted, stop := some ⟨.hlt, 0, some 0x01, none, none⟩ } := by decide
/-- V-F9, `fault`. -/
theorem test_hlt_at_255_strict :
    (after (strictAt 255 [0x01])).stop = some ⟨.outOfBounds, 255, some 0x01, some .lookahead, some 256⟩ := by decide
/-- V-F1. -/
theorem test_unknown_halts : after State.reset =
    { State.reset with run := .halted, stop := some ⟨.unknownOpcode, 0, some 0x00, none, none⟩ } := by decide
/-- V-F7. -/
theorem test_a_is_checked_before_b :
    (after (machineAt 0 [0xA0, 8, 9])).stop = some ⟨.outOfBounds, 0, some 0xA0, some .register, some 8⟩ := by decide
/-- V-F8, second step. -/
theorem test_fetch_fault :
    (after (machineAt 256 [])).stop = some ⟨.outOfBounds, 256, none, some .fetch, some 256⟩ := by decide
/-- V-F10, `inert`. -/
theorem test_operand_fault :
    (after (machineAt 254 [0x82, 0])).stop = some ⟨.outOfBounds, 254, some 0x82, some .operand, some 256⟩ := by decide
/-- R114. -/
theorem test_terminal_has_no_step : step (after State.reset) = .fault .terminalState := by
  rw [test_unknown_halts]
  rfl

/-! ## ALU (section 2.2) -/

/-- V-A1. -/
theorem test_add_wraps : (after (machine [0xA0, 0, 1] 200 100)).reg 0 = 44 := by decide
/-- V-A6. -/
theorem test_add_moves_sp : (after (machine [0xA0, 7, 1] 0 0x0C)).sp = 0 := by decide
/-- V-A9. -/
theorem test_mul_wraps : (after (machine [0xA2, 0, 1] 255 255)).reg 0 = 1 := by decide
/-- V-A12. -/
theorem test_mul_square : (after (machine [0xA2, 0, 0] 15 0)).reg 0 = 225 := by decide
/-- V-A17. -/
theorem test_cmp_less_unsigned : (after (machine [0xA7, 0, 1] 0 255)).flag = .less := by decide
/-- V-A16. -/
theorem test_cmp_greater : (after (machine [0xA7, 0, 1] 5 3)).flag = .greater := by decide
/-- V-X1. -/
theorem test_and : (after (machine [0xA8, 0, 1] 0xF0 0x3C)).reg 0 = 0x30 := by decide
/-- V-X2. -/
theorem test_or : (after (machine [0xAA, 0, 1] 0xF0 0x3C)).reg 0 = 0xFC := by decide
/-- V-X3. -/
theorem test_xor : (after (machine [0xAB, 0, 1] 0xF0 0x3C)).reg 0 = 0xCC := by decide
/-- V-X6. -/
theorem test_not : (after (machine [0x69, 0] 0x0F 0)).reg 0 = 0xF0 := by decide
/-- V-X5, the length. -/
theorem test_not_length : (after (machine [0x69, 0] 0 0)).pc = 2 := by decide
/-- V-X9. -/
theorem test_shl_by_eight : (after (machine [0xAC, 0, 1] 1 8)).reg 0 = 0 := by decide
/-- V-X12. -/
theorem test_shl_by_itself : (after (machine [0xAC, 0, 0] 3 0)).reg 0 = 24 := by decide
/-- V-X13. -/
theorem test_shr_logical : (after (machine [0xAD, 0, 1] 0x80 7)).reg 0 = 1 := by decide
/-- V-X14. -/
theorem test_shr_by_eight : (after (machine [0xAD, 0, 1] 0xFF 8)).reg 0 = 0 := by decide
/-- V-X20. -/
theorem test_mod : (after (machine [0xA4, 0, 1] 255 16)).reg 0 = 15 := by decide
/-- V-X21. -/
theorem test_mod_zero : (after (machine [0xA4, 0, 1] 7 0)).stop =
    some ⟨.divideOrModuloByZero, 0, some 0xA4, none, none⟩ := by decide
/-- R131: a select outside the closed set raises. -/
theorem test_alu_outside : aluApply (.outside 0) 1 2 = .error (.plain .unsupportedAluOperation) := by decide

/-! ## LDI and PRN (section 2.3) -/

/-- V-L2. -/
theorem test_ldi : (after (machineAt 0 [0x82, 3, 0xFF])).reg 3 = 255 := by decide
/-- V-F8, first step. -/
theorem test_ldi_at_253 : (after (machineAt 253 [0x82, 0, 5])).pc = 256 := by decide
/-- V-L6. -/
theorem test_prn_sp : (after (machineAt 0 [0x47, 7])).out = [244] := by decide
/-- V-F5. -/
theorem test_prn_bad_register : (after (machineAt 0 [0x47, 8])).out = [] := by decide

/-! ## Stack, call and return (section 2.4) -/

/-- V-S1, with the byte `x0 = 7`. -/
theorem test_push : (after (machine [0x45, 0] 7 0)).mem.read 0xF3 = 7 := by decide
/-- V-S3. -/
theorem test_push_r7 : (after (machine [0x45, 7] 0 0)).mem.read 0xF3 = 0xF3 := by decide
/-- V-S5. -/
theorem test_pop_wraps : (after ((machine [0x46, 2] 0 0).setSp 0xFF |>.writeMem 0xFF 0x42)).x =
    #v[0, 0, 0x42, 0, 0, 0, 0, 0x00] := by decide
/-- V-S6. -/
theorem test_pop_r7 : (after ((machine [0x46, 7] 0 0).setSp 0xF3 |>.writeMem 0xF3 0x20)).sp = 0x21 := by decide
/-- V-S8. -/
theorem test_call : (after ((machineAt 8 [0x50, 1]).setReg 1 13 |>.setSp 0xF3)).mem.read 0xF2 = 10 := by decide
/-- V-S9. -/
theorem test_call_r7 : (after (machineAt 0 [0x50, 7])).pc = 0xF3 := by decide
/-- V-S12. -/
theorem test_ret : (after ((machineAt 0 [0x11]).setSp 0xF2 |>.writeMem 0xF2 10)).pc = 10 := by decide
/-- V-S13. -/
theorem test_ret_wraps : (after ((machineAt 0 [0x11]).setSp 0xFF |>.writeMem 0xFF 7)).sp = 0 := by decide
/-- V-S14. -/
theorem test_call_at_254 : (after (machineAt 254 [0x50, 1])).stop =
    some ⟨.outOfBounds, 254, some 0x50, some .returnAddress, some 256⟩ := by decide

/-! ## Jumps (section 2.5) -/

/-- V-B14. -/
theorem test_jmp_r7 : (after (machineAt 30 [0x54, 7])).pc = 0xF4 := by decide
/-- V-B1. -/
theorem test_jmp : (after ((machineAt 30 [0x54, 4]).setReg 4 15)).pc = 15 := by decide
/-- V-B3. -/
theorem test_jeq_falls_through : (after { machineAt 30 [0x55, 4] with flag := .less }).pc = 32 := by decide
/-- V-B8. -/
theorem test_jeq_unset : (after (machineAt 30 [0x55, 4])).stop = some ⟨.flagUnset, 30, some 0x55, none, none⟩ := by
  decide
/-- V-B6. -/
theorem test_jne_jumps : (after ({ machineAt 30 [0x56, 4] with flag := .greater }.setReg 4 15)).pc = 15 := by decide
/-- V-B7. -/
theorem test_jne_falls_through : (after { machineAt 30 [0x56, 4] with flag := .equal }).pc = 32 := by decide

/-! ## Host interface -/

theorem test_withFetchWord_runs_a_base_row : (after (State.reset.withFetchWord 24 0x080082)).reg 0 = 8 := by decide
theorem test_withFetchWord_runs_an_optional_row : (after (State.reset.withFetchWord 16 0x0069)).reg 0 = 255 := by decide
/-- R241. -/
theorem test_boot_places_the_image : boot Config.default [0x82, 0x00, 0x08] =
    .ok { State.reset with mem := [(0, 0x82), (2, 0x08)] } := by decide
/-- The status port's code of FlagUnset is 4 (R210). -/
theorem test_status_code : (after (machineAt 30 [0x55, 4])).status.code = some 4 := by decide
/-- The trace port at 255 shows drawn bytes above the end (R17). -/
theorem test_trace_draws : ((machineAt 255 [0x01]).trace fun _ => 0x77) =
    ⟨255, 0x01, 0x77, 0x77, State.reset.x⟩ := by decide

/-! ## Witnesses: concrete states and operands that meet every statement's hypotheses -/

theorem witness_StepRunsTheDecodedInstruction :
    let s := strictAt 253 [0x82, 0x00, 0x05]
    s.run = .running ∧ ((Instr.ldi 0 5).optional = true → s.cfg.extAluOpcodes = true) ∧
    (∀ (k : Nat) (b : Byte), (encode (.ldi 0 5))[k]? = some b → s.mem.readAt (s.pc.toNat + k) = some b) ∧
    (s.cfg.lookaheadOob = .inert ∨ s.pc.toNat + 2 ≤ 255) := by
  refine ⟨rfl, by decide, ?_, by decide⟩
  intro k b h
  match k, h with
  | 0, h | 1, h | 2, h =>
    cases h
    decide

/-- At the last address, under `inert`. -/
theorem witness_StepRunsTheDecodedInstruction_at_255 :
    let s := machineAt 255 [0x01]
    s.run = .running ∧ (Instr.hlt.optional = true → s.cfg.extAluOpcodes = true) ∧
    (∀ (k : Nat) (b : Byte), (encode .hlt)[k]? = some b → s.mem.readAt (s.pc.toNat + k) = some b) ∧
    (s.cfg.lookaheadOob = .inert ∨ s.pc.toNat + 2 ≤ 255) := by
  refine ⟨rfl, by decide, ?_, by decide⟩
  intro k b h
  match k, h with
  | 0, h =>
    cases h
    decide

theorem witness_FetchAbove255Faults : (machineAt 256 []).run = .running ∧ 255 < (machineAt 256 []).pc.toNat := by decide

theorem witness_LookaheadAbove255FollowsThePolicy :
    (255 < 256 ∧ State.reset.cfg.lookaheadOob = .inert) ∧
    (let s := machineAt 255 [0x01]
     s.run = .running ∧ s.stop = none ∧ s.cfg.lookaheadOob = .inert ∧ step s = .next (after s) ∧
       (after s).stop = some ⟨.hlt, 255, some 0x01, none, none⟩) ∧
    (let s := strictAt 254 [0x47, 0x00]
     s.run = .running ∧ s.cfg.lookaheadOob = .fault ∧ 254 ≤ s.pc.toNat ∧ s.mem.readAt s.pc.toNat = some 0x47) ∧
    (let s := strictAt 255 [0x01]
     s.run = .running ∧ s.cfg.lookaheadOob = .fault ∧ 254 ≤ s.pc.toNat ∧ s.mem.readAt s.pc.toNat = some 0x01) :=
  ⟨by decide, ⟨rfl, rfl, rfl, next_after (by decide), by decide⟩, by decide, by decide⟩

theorem witness_ConsumedOperandAbove255Faults :
    (let s := machineAt 254 [0x82, 0x00]
     s.run = .running ∧ s.cfg.lookaheadOob = .inert ∧ s.mem.readAt s.pc.toNat = some Mnemonic.ldi.row.opcode ∧
       (Mnemonic.ldi.row.optional = true → s.cfg.extAluOpcodes = true) ∧
       255 < s.pc.toNat + (Mnemonic.ldi.row.format.length - 1)) ∧
    (let s := machineAt 255 [0x47]
     s.run = .running ∧ s.cfg.lookaheadOob = .inert ∧ s.mem.readAt s.pc.toNat = some Mnemonic.prn.row.opcode ∧
       (Mnemonic.prn.row.optional = true → s.cfg.extAluOpcodes = true) ∧
       255 < s.pc.toNat + (Mnemonic.prn.row.format.length - 1)) := by decide

theorem witness_UnknownOpcodeHaltsCleanly :
    (let s := machineAt 255 [0x00]
     s.run = .running ∧ s.mem.readAt s.pc.toNat = some 0x00 ∧
       (s.cfg.lookaheadOob = .inert ∨ s.pc.toNat + 2 ≤ 255) ∧
       (0x00 : Byte) ∉ ([0x01, 0x82, 0x47, 0xA0, 0xA2, 0x45, 0x46, 0x50, 0x11, 0xA7, 0x54, 0x55, 0x56] : List Byte) ∧
       (s.cfg.extAluOpcodes = false ∨ (0x00 : Byte) ∉ ([0xA8, 0xAA, 0xAB, 0x69, 0xAC, 0xAD, 0xA4] : List Byte))) ∧
    (let s := strictAt 0 [0xA8]
     s.run = .running ∧ s.mem.readAt s.pc.toNat = some 0xA8 ∧
       (s.cfg.lookaheadOob = .inert ∨ s.pc.toNat + 2 ≤ 255) ∧
       (0xA8 : Byte) ∉ ([0x01, 0x82, 0x47, 0xA0, 0xA2, 0x45, 0x46, 0x50, 0x11, 0xA7, 0x54, 0x55, 0x56] : List Byte) ∧
       (s.cfg.extAluOpcodes = false ∨ (0xA8 : Byte) ∉ ([0xA8, 0xAA, 0xAB, 0x69, 0xAC, 0xAD, 0xA4] : List Byte))) := by
  decide

/-- The lowest and the highest byte that names no register; `b` alone bad beside the last good `a`. -/
theorem witness_RegisterOperandsAreChecked :
    7 < (8 : Byte).toNat ∧ 7 < (255 : Byte).toNat ∧ (7 < (7 : Byte).toNat ∨ 7 < (8 : Byte).toNat) ∧
    (∃ t, exec (.ldi (regByte 7) 255) State.reset = .next t) ∧ (∃ t, exec .ret State.reset = .next t) ∧
    ∃ t, exec .hlt State.reset = .next t :=
  ⟨by decide, by decide, by decide, ⟨_, rfl⟩, ⟨_, rfl⟩, _, rfl⟩

theorem witness_TerminalStatesHaveNoStep :
    (after State.reset).run = .halted ∧ (after (machineAt 256 [])).run = .faulted := by decide

theorem witness_FaultsArePrecise :
    step (machineAt 256 []) = .next (after (machineAt 256 [])) ∧ (after (machineAt 256 [])).run = .faulted ∧
    step (machineAt 254 [0x82, 0]) = .next (after (machineAt 254 [0x82, 0])) ∧
    (after (machineAt 254 [0x82, 0])).run = .faulted :=
  ⟨next_after (by decide), by decide, next_after (by decide), by decide⟩

theorem witness_HaltsWriteOnlyRunAndStop :
    step State.reset = .next (after State.reset) ∧ (after State.reset).run = .halted ∧
    step (machineAt 0 [0x01]) = .next (after (machineAt 0 [0x01])) ∧ (after (machineAt 0 [0x01])).run = .halted :=
  ⟨next_after (by decide), by decide, next_after (by decide), by decide⟩

/-- One state for each clause: FlagUnset, DivideOrModuloByZero, OutOfBounds(return_address). -/
theorem witness_ConditionsAreRaisedOnlyWhereTabled :
    (let s := machineAt 30 [0x55, 4]
     s.stop = none ∧ step s = .next (after s) ∧ (after s).stop = some ⟨.flagUnset, 30, some 0x55, none, none⟩) ∧
    (let s := machine [0xA4, 0, 1] 7 0
     s.stop = none ∧ step s = .next (after s) ∧
       (after s).stop = some ⟨.divideOrModuloByZero, 0, some 0xA4, none, none⟩) ∧
    (let s := machineAt 254 [0x50, 1]
     s.stop = none ∧ step s = .next (after s) ∧
       (after s).stop = some ⟨.outOfBounds, 254, some 0x50, some .returnAddress, some 256⟩) :=
  ⟨⟨rfl, next_after (by decide), by decide⟩, ⟨rfl, next_after (by decide), by decide⟩, rfl, next_after (by decide), by decide⟩

theorem witness_BootMeetsTheInvariant :
    boot Config.default [0x01] = .ok { State.reset with mem := [(0, 0x01)] } := by decide

theorem witness_EveryStepKeepsTheInvariant :
    State.Inv (machineAt 0 [0x45, 7]) ∧ step (machineAt 0 [0x45, 7]) = .next (after (machineAt 0 [0x45, 7])) ∧
    State.Inv (machineAt 256 []) ∧ step (machineAt 256 []) = .next (after (machineAt 256 [])) :=
  ⟨by decide, next_after (by decide), by decide, next_after (by decide)⟩

theorem witness_EveryRunKeepsTheInvariant :
    State.Inv (machineAt 0 [0x45, 7, 0x01]) ∧ ∃ t, Host.Core.run Sys2Proof.core 2 (machineAt 0 [0x45, 7, 0x01]) = .next t :=
  ⟨by decide, _, rfl⟩

theorem witness_NoStepChangesTheParameters :
    step (machine [0xA0, 0, 1] 1 2) = .next (after (machine [0xA0, 0, 1] 1 2)) :=
  next_after (by decide)

theorem witness_OnlyCmpWritesTheFlag :
    step (machine [0xA7, 0, 1] 3 5) = .next (after (machine [0xA7, 0, 1] 3 5)) ∧
    (after (machine [0xA7, 0, 1] 3 5)).flag ≠ (machine [0xA7, 0, 1] 3 5).flag :=
  ⟨next_after (by decide), by decide⟩

theorem witness_OnlyConditionalJumpsReadTheFlag : (∀ a, Instr.cmp 0 1 ≠ .jeq a) ∧ ∀ a, Instr.cmp 0 1 ≠ .jne a := by simp

theorem witness_OnlyPrnEmits :
    step (machine [0x47, 0] 8 0) = .next (after (machine [0x47, 0] 8 0)) ∧ (after (machine [0x47, 0] 8 0)).out = [8] :=
  ⟨next_after (by decide), by decide⟩

theorem witness_OnlyPushAndCallWriteMemory :
    step (machine [0x45, 0] 7 0) = .next (after (machine [0x45, 0] 7 0)) ∧
    (after (machine [0x45, 0] 7 0)).mem.read 0xF3 ≠ (machine [0x45, 0] 7 0).mem.read 0xF3 ∧
    step (machine [0x50, 0] 7 0) = .next (after (machine [0x50, 0] 7 0)) ∧
    (after (machine [0x50, 0] 7 0)).mem.read 0xF3 ≠ (machine [0x50, 0] 7 0).mem.read 0xF3 :=
  ⟨next_after (by decide), by decide, next_after (by decide), by decide⟩

/-- One instruction for each arm of the table that writes a register. -/
theorem witness_RegistersAreWrittenOnlyAsTabled :
    (∃ t, exec (.ldi 0 5) State.reset = .next t ∧ t.reg 0 ≠ State.reset.reg 0) ∧
    (∃ t, exec (.pop 2) State.reset = .next t ∧ t.reg 7 ≠ State.reset.reg 7) ∧
    (∃ t, exec (.push 0) State.reset = .next t ∧ t.reg 7 ≠ State.reset.reg 7) :=
  ⟨⟨_, rfl, by decide⟩, ⟨_, rfl, by decide⟩, ⟨_, rfl, by decide⟩⟩

theorem witness_CanonicalMemoryIsDeterminedByItsBytes :
    Memory.wf [(0, 0x01), (255, 0x02)] ∧ ∀ a : Byte, Memory.read [(0, 0x01), (255, 0x02)] a = Memory.read [(0, 0x01), (255, 0x02)] a :=
  ⟨by decide, fun _ => rfl⟩

theorem witness_EndOfRunDoesNotDependOnFuel : 1 ≤ 2 ∧ endOfRun 1 (machineAt 0 [0x01]) = some (after (machineAt 0 [0x01])) := by
  decide

theorem witness_BootLeavesTheResetState :
    (1 ≤ [(0x01 : Byte)].length ∧ [(0x01 : Byte)].length ≤ 256) ∧
    1 ≤ (List.replicate 256 (0x01 : Byte)).length ∧ (List.replicate 256 (0x01 : Byte)).length ≤ 256 := by
  rw [List.length_replicate]
  decide

theorem witness_BootRefusesMissingAndOversizedImages : 256 < (List.replicate 257 (0x00 : Byte)).length := by
  rw [List.length_replicate]
  decide

/-- The highest `pc` at which all three bytes exist. -/
theorem witness_TraceShowsTheNextFetch :
    let s := machineAt 253 [0x82, 0x00, 0x05]
    s.mem.readAt s.pc.toNat = some 0x82 ∧ s.mem.readAt (s.pc.toNat + 1) = some 0x00 ∧
      s.mem.readAt (s.pc.toNat + 2) = some 0x05 := by decide

/-- The hypothesis `s.pc.toNat ≤ 255` at its boundary, for the statements that have it alone. -/
theorem witness_LdiLoadsTheImmediate : (machineAt 255 []).pc.toNat ≤ 255 := by decide
theorem witness_PrnEmitsTheRegister : (machineAt 255 []).pc.toNat ≤ 255 := by decide
theorem witness_NotWritesTheComplement : (machineAt 255 []).pc.toNat ≤ 255 := by decide
theorem witness_CmpSetsTheFlagUnsigned : (machineAt 255 []).pc.toNat ≤ 255 := by decide
theorem witness_PopLoadsFromTheStackPointer : (machineAt 255 []).pc.toNat ≤ 255 := by decide
theorem witness_AddWritesTheWrappedSum : (machineAt 255 []).pc.toNat ≤ 255 ∧ True := by decide
theorem witness_MulWritesTheLowByteOfTheProduct : (machineAt 255 []).pc.toNat ≤ 255 ∧ True := by decide
theorem witness_AndOrXorWriteTheBitwiseResult : (machineAt 255 []).pc.toNat ≤ 255 ∧ True := by decide
theorem witness_ShlShiftsByTheWholeByte : (machineAt 255 []).pc.toNat ≤ 255 ∧ True := by decide
theorem witness_ShrShiftsByTheWholeByte : (machineAt 255 []).pc.toNat ≤ 255 ∧ True := by decide

theorem witness_ModWritesTheRemainderOrFaults :
    ((machineAt 255 []).pc.toNat ≤ 255 ∧ ((machineAt 255 []).reg 7).toNat ≠ 0) ∧ ((machineAt 255 []).reg 0).toNat = 0 := by
  decide

theorem witness_PushStoresBelowTheStackPointer :
    (machineAt 255 [0x45]).pc.toNat ≤ 255 ∧ (machineAt 255 [0x45]).mem.wf := by decide

/-- Both clauses at the values where they meet: `pc` of 253 and of 254. -/
theorem witness_CallPushesTheReturnAddressAndJumps :
    ((machineAt 253 [0x50]).pc.toNat + 2 ≤ 255 ∧ (machineAt 253 [0x50]).mem.wf) ∧
    255 < (machineAt 254 [0x50]).pc.toNat + 2 := by decide

theorem witness_PushThenPopRestoresEveryRegister : (machineAt 0 [0x45, 7, 0x46, 7]).mem.wf := by decide

/-- The CALL's own next state meets the inner hypotheses. -/
theorem witness_CallThenRetReturnsAfterTheCall :
    (machineAt 253 [0x50]).mem.wf ∧ (machineAt 253 [0x50]).pc.toNat + 2 ≤ 255 ∧
    ∃ t, exec (.call 1) (machineAt 253 [0x50]) = .next t ∧ t.sp = t.sp ∧ t.mem.read t.sp = t.mem.read t.sp :=
  ⟨by decide, by decide, _, rfl, rfl, rfl⟩

theorem witness_LdiOfRegister7MovesTheStack : (machineAt 0 [0x82, 7, 0]).mem.wf := by decide

/-- A state of any flag value, at the last address, under either policy for an UNSET flag. -/
def flagged (f : Flag) (p : UnsetFlagPolicy) : State :=
  { machineAt 255 [] with flag := f, cfg := { Config.default with unsetFlagPolicy := p } }

theorem witness_JeqJumpsExactlyOnEqual :
    (flagged .equal .fault).pc.toNat ≤ 255 ∧ (flagged .equal .fault).flag = .equal ∧
    (flagged .greater .fault).flag = .greater ∧
    ((flagged .unset .notEqual).flag = .unset ∧ (flagged .unset .notEqual).cfg.unsetFlagPolicy = .notEqual) ∧
    ((flagged .unset .fault).flag = .unset ∧ (flagged .unset .fault).cfg.unsetFlagPolicy = .fault) := by decide

theorem witness_JneJumpsExactlyOnNotEqual :
    (flagged .less .fault).pc.toNat ≤ 255 ∧ (flagged .less .fault).flag = .less ∧
    ((flagged .unset .notEqual).flag = .unset ∧ (flagged .unset .notEqual).cfg.unsetFlagPolicy = .notEqual) ∧
    (flagged .equal .fault).flag = .equal ∧
    ((flagged .unset .fault).flag = .unset ∧ (flagged .unset .fault).cfg.unsetFlagPolicy = .fault) := by decide

theorem witness_HltHalts :
    (let s := machineAt 255 [0x01]
     s.run = .running ∧ s.pc.toNat = 255 ∧ s.mem.read 255 = 0x01 ∧ s.cfg.lookaheadOob = .inert) ∧
    (let s := strictAt 255 [0x01]
     s.run = .running ∧ s.pc.toNat = 255 ∧ s.mem.read 255 = 0x01 ∧ s.cfg.lookaheadOob = .fault) := by decide

theorem witness_UnsetFlagFollowsThePolicy :
    (flagged .unset .fault).pc.toNat ≤ 255 ∧ (flagged .unset .fault).flag = .unset ∧
    (flagged .unset .fault).cfg.unsetFlagPolicy = .fault ∧ (flagged .unset .notEqual).pc.toNat ≤ 255 ∧
    (flagged .unset .notEqual).flag = .unset ∧ (flagged .unset .notEqual).cfg.unsetFlagPolicy = .notEqual := by decide

end Sys2Proof.Tests
end

section
/-! The reset state that `boot` leaves (`10_state.md` R46, `70_reset_and_hazards.md` R241). -/

namespace Sys2Proof.Machine

/-- R241: an image of 1 to 256 bytes is accepted, and it changes the reset state in Memory and the parameters alone. -/
theorem boot_of_length (cfg : Config) {image : List Byte} (hpos : 1 ≤ image.length) (hmax : image.length ≤ 256) :
    boot cfg image = .ok { State.reset with mem := Memory.load 0 image [], cfg := cfg } := by
  rw [boot, if_neg (by omega), if_neg (by omega)]

/-- R241: Memory right after reset reads as the image from address 0, and as the reset contents beyond it. -/
theorem Memory.read_load_nil {image : List Byte} (hmax : image.length ≤ 256) (a : Byte) :
    (Memory.load 0 image []).read a = (image[a.toNat]?).getD Memory.resetByte := by
  rw [Memory.read, Memory.lookup_load image 0 [] Memory.wf_nil (by omega), if_pos (Nat.zero_le _), Nat.sub_zero,
    Memory.lookup]

/-- R46: right after reset every register but SP is zero. -/
theorem State.reset_reg_of_ne : ∀ r : Fin 8, r ≠ 7 → State.reset.reg r = 0x00 := by decide

/-- Settles O26: `boot` keeps every field of the reset state but Memory, which holds the image, and the parameters. -/
theorem bootLeavesTheResetState : Obligations.BootLeavesTheResetState := by
  intro cfg image hpos hmax
  exact ⟨_, boot_of_length cfg hpos hmax, Memory.read_load_nil hmax, State.reset_reg_of_ne,
    rfl, rfl, rfl, rfl, rfl, rfl, rfl⟩

end Sys2Proof.Machine
end

section
/-! Fetch and decode: what the lookahead policy, a missing operand byte and a bad register byte leave
(`40_fetch_decode.md` R103, R104, R108, R109). -/

namespace Sys2Proof.Machine

/-- When the fetch stops the core, the step leaves that state and nothing is decoded (`40_fetch_decode.md` R113). -/
theorem step_of_fetch_error {s t : State} (hr : s.run = .running) (h : fetch s = .error t) : step s = .next t := by
  simp [step, hr, fetchInstr, h]

/-- The stop record an instruction leaves is the old one, or names no failed check or one of the two checks that belong
to instructions: the register operands and CALL's return address (`60_exceptions.md` R210, R211). -/
theorem Effect.stop_cases {s t : State} {i : Instr} (h : Effect s i t) :
    t.stop = s.stop ∨
    ∃ r : StopRecord, t.stop = some r ∧
      (r.kind = none ∨ r.kind = some .register ∨ r.kind = some .returnAddress) := by
  cases h with
  | hlt | modZero | flagUnset => exact .inr ⟨_, rfl, .inl rfl⟩
  | badRegister => exact .inr ⟨_, rfl, .inr (.inl rfl)⟩
  | callFault => exact .inr ⟨_, rfl, .inr (.inr rfl)⟩
  | _ => exact .inl rfl

/-- An instruction records no lookahead fault: both lookahead reads are over before its handler runs. -/
theorem exec_kind_ne_lookahead {s t : State} {i : Instr} {r : StopRecord} (hs : s.stop = none)
    (h : exec i s = .next t) (hr : t.stop = some r) : r.kind ≠ some .lookahead := by
  obtain ⟨t', ht', heff⟩ := exec_effect i s
  obtain rfl : t' = t := Host.Outcome.next.inj (ht'.symm.trans h)
  rcases heff.stop_cases with hkeep | ⟨r', hr', hkind⟩
  · simp [hkeep, hs] at hr
  · obtain rfl : r' = r := Option.some.inj (hr'.symm.trans hr)
    rcases hkind with hk | hk | hk <;> simp [hk]

/-- R103 under `inert`: no step records a lookahead fault. -/
theorem step_inert_kind_ne_lookahead {s t : State} {r : StopRecord} (hs : s.stop = none)
    (hl : s.cfg.lookaheadOob = .inert) (h : step s = .next t) (hr : t.stop = some r) : r.kind ≠ some .lookahead := by
  obtain ⟨-, heff⟩ := step_next h
  cases heff with
  | fetchFault | unknown | operandFault =>
    cases hr
    simp [Condition.outOfBounds]
  | lookaheadFault _ _ hlf => simp [hl] at hlf
  | instr _ _ _ _ _ hexec => exact exec_kind_ne_lookahead hs hexec hr

/-- Settles O5: `look` gives its two answers by the policy, and only the fault answer reaches a stop record. -/
theorem lookaheadAbove255FollowsThePolicy : Obligations.LookaheadAbove255FollowsThePolicy := by
  refine ⟨fun s t ht hl => ?_, fun s r _ hs hl t h hr => step_inert_kind_ne_lookahead hs hl h hr,
    fun s op hr hl hpc hop => step_of_fetch_error hr (fetch_lookahead_fault hop hl hpc)⟩
  rw [look_inert s t hl, Memory.readAt_of_gt s.mem ht]

/-- A decoded row with too few bytes after its opcode is answered with the lowest missing offset
(`40_fetch_decode.md` R104). -/
theorem decode_opcode_truncated {ext : Bool} {m : Mnemonic} {bs : List Byte}
    (hext : m.row.optional = true → ext = true) (hlen : bs.length + 1 < m.row.format.length) :
    decode ext (m.row.opcode :: bs) = .error (.truncated (bs.length + 1)) := by
  simp only [decode, Mnemonic.ofOpcode_eq_some.mpr ⟨rfl, hext⟩]
  exact Mnemonic.parse_eq_error.mpr ⟨hlen, rfl⟩

/-- A fetch that reaches the end of Memory before the row's last byte is truncated at address 256. -/
theorem decode_fetchBytes_truncated {s : State} {m : Mnemonic} (hpc : s.pc.toNat ≤ 255)
    (hext : m.row.optional = true → s.cfg.extAluOpcodes = true) (hlen : 256 < s.pc.toNat + m.row.format.length) :
    decode s.cfg.extAluOpcodes (s.fetchBytes m.row.opcode) = .error (.truncated (256 - s.pc.toNat)) := by
  obtain ⟨-, hrow⟩ := Sys2Proof.Laws.EncodedLength.row_length m
  have hcount : (s.fetchBytes m.row.opcode).length = 256 - s.pc.toNat := by
    rw [fetchBytes_length s _ hpc]
    omega
  rw [State.fetchBytes, List.length_cons] at hcount
  rw [State.fetchBytes, decode_opcode_truncated hext (by omega), hcount]

/-- Settles O6: the decoder's truncated answer becomes the operand fault at 256. -/
theorem consumedOperandAbove255Faults : Obligations.ConsumedOperandAbove255Faults := by
  intro s m hr hl hop hext hlen
  have hpc := Memory.le_of_readAt hop
  have hend : s.pc.toNat + (256 - s.pc.toNat) = 256 := by omega
  rw [step_of_fetch hr hop (.inl hl), decode_fetchBytes_truncated hpc hext (by omega)]
  simp only [hend]
  rfl

/-- The rows of R109 with `a` as the one register operand, but LDI: each is a handler behind that one check. -/
theorem exec_oneReg : ∀ mk ∈ ([.prn, .push, .pop, .call, .jmp, .jeq, .jne, .not] : List (Byte → Instr)),
    ∀ (s : State) (a : Byte), ∃ handler, exec (mk a) s = withReg (mk a).opcode a s handler := by
  intro mk hmk s a
  fin_cases hmk <;> exact ⟨_, rfl⟩

/-- The rows of R109 with the two register operands `a` and `b`: each is a handler behind both checks. -/
theorem exec_twoRegs :
    ∀ mk ∈ ([.add, .mul, .cmp, .and, .or, .xor, .shl, .shr, .mod] : List (Byte → Byte → Instr)),
    ∀ (s : State) (a b : Byte), ∃ handler, exec (mk a b) s = withRegs (mk a b).opcode a b s handler := by
  intro mk hmk s a b
  fin_cases hmk <;> exact ⟨_, rfl⟩

/-- Settles O8: every row's check comes before its handler, so a bad byte raises in the state the handler would start
from; LDI's immediate, RET and HLT meet no check. -/
theorem registerOperandsAreChecked : Obligations.RegisterOperandsAreChecked := by
  refine ⟨fun mk hmk s a ha => ?_, fun s a imm ha => withReg_of_gt 0x82 s _ ha, fun mk hmk s a b hab => ?_,
    fun s t ra imm h => ?_, fun s t h => ?_, fun s t h => ?_⟩
  · obtain ⟨handler, h⟩ := exec_oneReg mk hmk s a
    exact h.trans (withReg_of_gt _ s handler ha)
  · obtain ⟨handler, h⟩ := exec_twoRegs mk hmk s a b
    exact h.trans (withRegs_of_gt _ s handler hab)
  · obtain rfl := Host.Outcome.next.inj ((exec_ldi s ra imm).symm.trans h)
    rfl
  · obtain rfl := Host.Outcome.next.inj ((exec_ret s).symm.trans h)
    rfl
  · obtain rfl := Host.Outcome.next.inj ((exec_hlt s).symm.trans h)
    rfl

end Sys2Proof.Machine
end

section
/-! The ALU instructions (`41_alu.md`): an operation with a result writes `x[ra]` and `pc` alone, so each statement turns on
what its `wrap8` or bitwise result is as a number; CMP writes `flag` and `pc` alone. -/

namespace Sys2Proof.Machine

/-- What a register write followed by the fixed increment does and leaves unchanged, at a `pc` the fetch check allows. -/
theorem setReg_advance_frame {s : State} {n : Nat} (hpc : s.pc.toNat ≤ 255) (hn : n ≤ 3) (ra : Fin 8) (v : Byte) :
    let t := (s.setReg ra v).advance n
    t.reg ra = v ∧ t.pc.toNat = s.pc.toNat + n ∧ KeepsRegsBut ra s t ∧ t.flag = s.flag ∧ t.out = s.out ∧
      KeepsMemory s t ∧ KeepsRun s t := by
  have hkeep : KeepsRegsBut ra s ((s.setReg ra v).advance n) := fun q hq => by simp [hq]
  exact ⟨by simp, State.advance_pc_toNat (s.setReg ra v) n hpc hn, hkeep, rfl, rfl, fun _ => rfl, rfl, rfl, rfl⟩

/-- A two-register instruction that writes the byte `res` of its two registers to `reg_a` has the shape `AluTwoWrites`,
for the number function that `res` computes. -/
theorem aluTwoWrites_of_exec {mk : Byte → Byte → Instr} {opcode : Byte} {f : Nat → Nat → Nat} {ok : Nat → Prop}
    (res : Byte → Byte → Byte) (hencode : ∀ a b, encode (mk a b) = [opcode, a, b])
    (hexec : ∀ (s : State) (ra rb : Fin 8), ok (s.reg rb).toNat →
      exec (mk (regByte ra) (regByte rb)) s = .next ((s.setReg ra (res (s.reg ra) (s.reg rb))).advance 3))
    (hres : ∀ x y : Byte, ok y.toNat → (res x y).toNat = f x.toNat y.toNat) : AluTwoWrites mk opcode f ok := by
  intro s ra rb hpc hok
  obtain ⟨hreg, hframe⟩ := setReg_advance_frame hpc le_rfl ra (res (s.reg ra) (s.reg rb))
  exact ⟨hencode _ _, _, hexec s ra rb hok, (congrArg BitVec.toNat hreg).trans (hres _ _ hok), hframe⟩

/-- Settles O32: the result is `wrap8` of the sum. -/
theorem addWritesTheWrappedSum : Obligations.AddWritesTheWrappedSum :=
  aluTwoWrites_of_exec (fun x y => wrap8 (x.toNat + y.toNat)) (fun _ _ => rfl) (fun s ra rb _ => exec_add s ra rb)
    fun _ _ _ => wrap8_toNat _

/-- Settles O33: the result is `wrap8` of the product. -/
theorem mulWritesTheLowByteOfTheProduct : Obligations.MulWritesTheLowByteOfTheProduct :=
  aluTwoWrites_of_exec (fun x y => wrap8 (x.toNat * y.toNat)) (fun _ _ => rfl) (fun s ra rb _ => exec_mul s ra rb)
    fun _ _ _ => wrap8_toNat _

/-- Settles O34: the bitwise operations on bytes are the bitwise operations on their values. -/
theorem andOrXorWriteTheBitwiseResult : Obligations.AndOrXorWriteTheBitwiseResult :=
  ⟨aluTwoWrites_of_exec (· &&& ·) (fun _ _ => rfl) (fun s ra rb _ => exec_and s ra rb) fun x y _ => BitVec.toNat_and x y,
    aluTwoWrites_of_exec (· ||| ·) (fun _ _ => rfl) (fun s ra rb _ => exec_or s ra rb) fun x y _ => BitVec.toNat_or x y,
    aluTwoWrites_of_exec (· ^^^ ·) (fun _ _ => rfl) (fun s ra rb _ => exec_xor s ra rb) fun x y _ => BitVec.toNat_xor x y⟩

/-- R139: a left shift by 8 or more leaves no bit within the byte. -/
theorem wrap8_shl_toNat (x n : Nat) : (wrap8 (x * 2 ^ n)).toNat = if n < 8 then (x * 2 ^ n) % 256 else 0 := by
  rw [wrap8_toNat]
  split
  case isTrue => rfl
  case isFalse h =>
    have hdvd : 2 ^ 8 ∣ 2 ^ n := pow_dvd_pow 2 (Nat.le_of_not_lt h)
    exact Nat.mod_eq_zero_of_dvd (hdvd.mul_left x)

/-- Settles O35: the count is the whole second byte. -/
theorem shlShiftsByTheWholeByte : Obligations.ShlShiftsByTheWholeByte :=
  aluTwoWrites_of_exec (fun x y => wrap8 (x.toNat * 2 ^ y.toNat)) (fun _ _ => rfl) (fun s ra rb _ => exec_shl s ra rb)
    fun _ _ _ => wrap8_shl_toNat _ _

/-- R140: a logical right shift of a byte needs no narrowing, and one by 8 or more gives 0. -/
theorem wrap8_shr_toNat (x : Byte) (n : Nat) :
    (wrap8 (x.toNat / 2 ^ n)).toNat = if n < 8 then x.toNat / 2 ^ n else 0 := by
  have hlt : x.toNat / 2 ^ n < 256 := (Nat.div_le_self _ _).trans_lt x.isLt
  rw [wrap8_toNat, Nat.mod_eq_of_lt hlt]
  split
  case isTrue => rfl
  case isFalse h =>
    have hpow : 2 ^ 8 ≤ 2 ^ n := Nat.pow_le_pow_right (by decide) (Nat.le_of_not_lt h)
    exact Nat.div_eq_of_lt (x.isLt.trans_le hpow)

/-- Settles O36: the count is the whole second byte. -/
theorem shrShiftsByTheWholeByte : Obligations.ShrShiftsByTheWholeByte :=
  aluTwoWrites_of_exec (fun x y => wrap8 (x.toNat / 2 ^ y.toNat)) (fun _ _ => rfl) (fun s ra rb _ => exec_shr s ra rb)
    fun x _ _ => wrap8_shr_toNat x _

/-- R141: the remainder of a byte is a byte, so nothing is narrowed. -/
theorem wrap8_mod_toNat (x : Byte) (n : Nat) : (wrap8 (x.toNat % n)).toNat = x.toNat % n := by
  have hlt : x.toNat % n < 256 := (Nat.mod_le _ _).trans_lt x.isLt
  rw [wrap8_toNat, Nat.mod_eq_of_lt hlt]

/-- Settles O37: a divisor other than 0 gives the remainder, and a divisor of 0 raises. -/
theorem modWritesTheRemainderOrFaults : Obligations.ModWritesTheRemainderOrFaults :=
  ⟨aluTwoWrites_of_exec (fun x y => wrap8 (x.toNat % y.toNat)) (fun _ _ => rfl) exec_mod fun x _ _ => wrap8_mod_toNat x _,
    exec_mod_zero⟩

/-- Settles O38: 255 minus a byte is a byte, so nothing is narrowed. -/
theorem notWritesTheComplement : Obligations.NotWritesTheComplement := by
  intro s ra hpc
  obtain ⟨hreg, hframe⟩ := setReg_advance_frame (n := 2) hpc (by decide) ra (wrap8 (255 - (s.reg ra).toNat))
  have hres : (wrap8 (255 - (s.reg ra).toNat)).toNat = 255 - (s.reg ra).toNat := by
    rw [wrap8_toNat]
    omega
  exact ⟨rfl, _, exec_not s ra, (congrArg BitVec.toNat hreg).trans hres, hframe⟩

/-- R142: the flag of a comparison is the order of the two bytes as numbers. -/
theorem cmpFlag_eq_iff (x y : Byte) :
    (cmpFlag x y = .greater ↔ x.toNat > y.toNat) ∧ (cmpFlag x y = .less ↔ x.toNat < y.toNat) ∧
      (cmpFlag x y = .equal ↔ x.toNat = y.toNat) := by
  rcases Nat.lt_trichotomy x.toNat y.toNat with h | h | h
  · simp [cmpFlag, h, h.not_gt, h.ne]
  · simp [cmpFlag, h]
  · simp [cmpFlag, h, h.not_gt, h.ne']

/-- Settles O39: CMP replaces the flag by that of the comparison and advances. -/
theorem cmpSetsTheFlagUnsigned : Obligations.CmpSetsTheFlagUnsigned := by
  intro s ra rb hpc
  obtain ⟨hgreater, hless, hequal⟩ := cmpFlag_eq_iff (s.reg ra) (s.reg rb)
  exact ⟨rfl, _, exec_cmp s ra rb, hgreater, hless, hequal, State.advance_pc_toNat _ 3 hpc le_rfl, fun _ => rfl, rfl,
    fun _ => rfl, rfl, rfl, rfl⟩

end Sys2Proof.Machine
end

section
/-! The load and output instructions (`42_load_output.md`): LDI writes `x[ra]` and `pc` alone, PRN writes `out` and `pc`
alone. -/

namespace Sys2Proof.Machine

/-- What an output followed by the fixed increment does and leaves unchanged, at a `pc` the fetch check allows. -/
theorem emit_advance_frame {s : State} {n : Nat} (hpc : s.pc.toNat ≤ 255) (hn : n ≤ 3) (v : Byte) :
    let t := (s.emit v).advance n
    t.out = s.out ++ [v] ∧ t.pc.toNat = s.pc.toNat + n ∧ KeepsRegs s t ∧ t.flag = s.flag ∧ KeepsMemory s t ∧
      KeepsRun s t :=
  ⟨rfl, State.advance_pc_toNat (s.emit v) n hpc hn, fun _ => rfl, rfl, fun _ => rfl, rfl, rfl, rfl⟩

/-- Settles O30: LDI is a register write of the immediate and an increment by its three bytes. -/
theorem ldiLoadsTheImmediate : Obligations.LdiLoadsTheImmediate := by
  intro s ra imm hpc
  exact ⟨rfl, _, exec_ldi s ra imm, setReg_advance_frame hpc le_rfl ra imm⟩

/-- Settles O31: PRN is an output of the register and an increment by its two bytes. -/
theorem prnEmitsTheRegister : Obligations.PrnEmitsTheRegister := by
  intro s ra hpc
  exact ⟨rfl, _, exec_prn s ra, emit_advance_frame hpc (by decide) (s.reg ra)⟩

end Sys2Proof.Machine
end

section
/-! Stack, call and return (`43_stack_call.md`). PUSH and CALL share one register update and one store at the new SP, so
what that pair does is said once; POP and RET write registers and `pc` alone. -/

namespace Sys2Proof.Machine

/-- R184: the decrement of SP and the store of one byte at the new SP, in canonical Memory. -/
theorem push_frame {s : State} (hmem : s.mem.wf) (v : Byte) :
    let t := (s.setReg 7 (spDown (s.reg 7))).writeMem (spDown (s.reg 7)) v
    t.reg 7 = spDown (s.reg 7) ∧ t.mem.read (spDown s.sp) = v ∧
      (∀ a : Byte, a ≠ spDown s.sp → t.mem.read a = s.mem.read a) ∧ KeepsRegsBut 7 s t := by
  have hkeep : KeepsRegsBut 7 s ((s.setReg 7 (spDown (s.reg 7))).writeMem (spDown (s.reg 7)) v) :=
    fun q hq => by simp [hq]
  exact ⟨by simp, Memory.read_write_same hmem _ v, fun _ ha => Memory.read_write_other _ v ha, hkeep⟩

/-- Settles O40: PUSH is a push of the register as read after the decrement, and an increment by its two bytes. -/
theorem pushStoresBelowTheStackPointer : Obligations.PushStoresBelowTheStackPointer := by
  intro s ra hpc hmem
  obtain ⟨hsp, hcell, hother, hregs⟩ := push_frame hmem (if ra = 7 then spDown (s.reg 7) else s.reg ra)
  exact ⟨rfl, _, exec_push s ra, (congrArg BitVec.toNat hsp).trans (spDown_toNat _), hcell.trans (by simp), hother,
    State.advance_pc_toNat _ 2 hpc (by decide), hregs, rfl, rfl, rfl, rfl, rfl⟩

/-- Settles O41: the register takes the byte at the old SP before SP is incremented, so POP R7 increments that byte. -/
theorem popLoadsFromTheStackPointer : Obligations.PopLoadsFromTheStackPointer := by
  intro s ra hpc
  refine ⟨rfl, _, exec_pop s ra, fun hra => ⟨?reg, ?sp⟩, fun hra => ?r7, fun q hqa hq7 => ?others,
    State.advance_pc_toNat _ 2 hpc (by decide), rfl, rfl, fun _ => rfl, rfl, rfl, rfl⟩
  case reg => simp [hra]
  case sp => simp [hra, spUp_toNat]
  case r7 => simp [hra, spUp_toNat]
  case others => simp [hqa, hq7]

/-- Settles O42: a return address that fits a cell is pushed before the target is read, and one that does not fit
raises. -/
theorem callPushesTheReturnAddressAndJumps : Obligations.CallPushesTheReturnAddressAndJumps := by
  refine ⟨fun s ra hpc hmem => ?completes, fun s ra hpc => exec_call_fault s ra hpc⟩
  case completes =>
    obtain ⟨hsp, hcell, hother, hregs⟩ := push_frame hmem (BitVec.ofNat 8 (s.pc.toNat + 2))
    have hret : (BitVec.ofNat 8 (s.pc.toNat + 2)).toNat = s.pc.toNat + 2 := by
      rw [BitVec.toNat_ofNat, Nat.mod_eq_of_lt (Nat.lt_succ_of_le hpc)]
    exact ⟨rfl, _, exec_call s ra hpc, (congrArg BitVec.toNat hsp).trans (spDown_toNat _),
      (congrArg BitVec.toNat hcell).trans hret, hother, (State.jump_pc_toNat _ _).trans (by simp), hregs,
      rfl, rfl, rfl, rfl, rfl⟩

/-- Settles O43: RET is a jump to the byte at SP and an increment of SP. -/
theorem retPopsThePc : Obligations.RetPopsThePc := by
  refine ⟨rfl, fun s => ⟨_, exec_ret s, State.jump_pc_toNat s _, ?sp, fun q hq => ?others, rfl, rfl, fun _ => rfl,
    rfl, rfl, rfl⟩⟩
  case sp => simp [spUp_toNat]
  case others => simp [hq]

end Sys2Proof.Machine
end

section
/-! Jumps and conditional branches (`44_branch.md`). JEQ and JNE share `condJump`, so what it does for each reading of the
flag is said once, for any choice `taken` of the readings that jump. -/

namespace Sys2Proof.Machine

/-- R203: a jump to a register's value writes `pc` alone. -/
theorem jump_jumpsTo (s : State) (ra : Fin 8) : JumpsTo ra s (s.jump (s.reg ra)) :=
  ⟨State.jump_pc_toNat s _, fun _ => rfl, rfl, rfl, fun _ => rfl, rfl, rfl, rfl⟩

/-- R203: falling through writes `pc` alone; at 254 it leaves 256. -/
theorem advance_fallsThrough {s : State} (hpc : s.pc.toNat ≤ 255) : FallsThrough s (s.advance 2) :=
  ⟨State.advance_pc_toNat s 2 hpc (by decide), fun _ => rfl, rfl, rfl, fun _ => rfl, rfl, rfl, rfl⟩

section Reading
variable {p : UnsetFlagPolicy} {f : Flag}

theorem flagIsEqual_of_equal (h : f = .equal) : flagIsEqual p f = .ok true := by
  rw [h, flagIsEqual]

/-- R204: under `not_equal` an UNSET flag reads as LESS and GREATER do. -/
theorem flagIsEqual_of_notEqual (h : f = .less ∨ f = .greater ∨ (f = .unset ∧ p = .notEqual)) :
    flagIsEqual p f = .ok false := by
  rcases h with rfl | rfl | ⟨rfl, rfl⟩ <;> rw [flagIsEqual]

theorem flagIsEqual_of_unset_fault (hf : f = .unset) (hp : p = .fault) :
    flagIsEqual p f = .error (.plain .flagUnset) := by
  rw [hf, hp, flagIsEqual]

end Reading

section CondJump
variable {s : State} {eq : Bool} {taken : Bool → Bool}

/-- A conditional jump on a reading of the flag that it takes. -/
theorem condJump_jumpsTo (ra : Fin 8) (op : Byte) (h : flagIsEqual s.cfg.unsetFlagPolicy s.flag = .ok eq)
    (ht : taken eq = true) : ∃ t, condJump taken op (regByte ra) s = .next t ∧ JumpsTo ra s t := by
  refine ⟨_, condJump_of_ok s ra taken op h, ?_⟩
  rw [if_pos ht]
  exact jump_jumpsTo s ra

/-- A conditional jump on a reading of the flag that it does not take. -/
theorem condJump_fallsThrough (ra : Fin 8) (op : Byte) (h : flagIsEqual s.cfg.unsetFlagPolicy s.flag = .ok eq)
    (ht : taken eq = false) (hpc : s.pc.toNat ≤ 255) :
    ∃ t, condJump taken op (regByte ra) s = .next t ∧ FallsThrough s t := by
  refine ⟨_, condJump_of_ok s ra taken op h, ?_⟩
  rw [if_neg (by simp [ht])]
  exact advance_fallsThrough hpc

end CondJump

/-- Settles O47: JMP is a jump to the register's value. -/
theorem jmpJumpsToTheRegister : Obligations.JmpJumpsToTheRegister := by
  intro s ra
  exact ⟨rfl, _, exec_jmp s ra, jump_jumpsTo s ra⟩

/-- Settles O48: JEQ is the conditional jump taken on the reading EQUAL. -/
theorem jeqJumpsExactlyOnEqual : Obligations.JeqJumpsExactlyOnEqual := by
  intro s ra hpc
  refine ⟨rfl, fun hequal => ?equal, fun hother => ?other, fun hunset hfault => ?fault⟩
  case equal => exact condJump_jumpsTo ra 0x55 (flagIsEqual_of_equal hequal) rfl
  case other => exact condJump_fallsThrough ra 0x55 (flagIsEqual_of_notEqual hother) rfl hpc
  case fault => exact condJump_of_error s ra _ 0x55 (flagIsEqual_of_unset_fault hunset hfault)

/-- Settles O49: JNE is the conditional jump taken on the reading not EQUAL. -/
theorem jneJumpsExactlyOnNotEqual : Obligations.JneJumpsExactlyOnNotEqual := by
  intro s ra hpc
  refine ⟨rfl, fun hother => ?other, fun hequal => ?equal, fun hunset hfault => ?fault⟩
  case other => exact condJump_jumpsTo ra 0x56 (flagIsEqual_of_notEqual hother) rfl
  case equal => exact condJump_fallsThrough ra 0x56 (flagIsEqual_of_equal hequal) rfl hpc
  case fault => exact condJump_of_error s ra _ 0x56 (flagIsEqual_of_unset_fault hunset hfault)

/-- Settles O50: the UNSET clauses of JEQ and JNE side by side, under each policy. -/
theorem unsetFlagFollowsThePolicy : Obligations.UnsetFlagFollowsThePolicy := by
  intro s ra hpc hunset
  obtain ⟨-, -, hjeqFalls, hjeqFault⟩ := jeqJumpsExactlyOnEqual s ra hpc
  obtain ⟨-, hjneJumps, -, hjneFault⟩ := jneJumpsExactlyOnNotEqual s ra hpc
  refine ⟨fun hfault => ⟨hjeqFault hunset hfault, hjneFault hunset hfault⟩, fun hnotEqual => ?_⟩
  have hother : s.flag = .less ∨ s.flag = .greater ∨ (s.flag = .unset ∧ s.cfg.unsetFlagPolicy = .notEqual) :=
    .inr (.inr ⟨hunset, hnotEqual⟩)
  exact ⟨hjeqFalls hother, hjneJumps hother⟩

end Sys2Proof.Machine
end

section
/-! Faults are precise (`60_exceptions.md` R212): FAULTED is entered through `State.raise` alone, from the state the step
began in. -/

namespace Sys2Proof.Machine

/-- R212: an instruction that faults has written nothing before, records its own opcode byte, and the check that failed is
never the fetch's; every other effect keeps RUNNING or halts. -/
theorem Effect.eq_raise_of_faulted {s t : State} {i : Instr} (h : Effect s i t) (hs : s.run = .running)
    (ht : t.run = .faulted) : ∃ c : Condition, t = s.raise (some i.opcode) c ∧ c.kind ≠ some .fetch := by
  cases h with
  | modZero | flagUnset => exact ⟨_, rfl, by simp [Condition.plain]⟩
  | callFault | badRegister => exact ⟨_, rfl, by simp [Condition.outOfBounds]⟩
  | hlt => simp at ht
  | _ => simp [hs] at ht

/-- R212 for a whole step: it faults by raising one condition in the state it began in, with no opcode for a fetch fault
and otherwise the byte at `pc`. -/
theorem step_eq_raise_of_faulted {s t : State} (h : step s = .next t) (ht : t.run = .faulted) :
    ∃ (op : Option Byte) (c : Condition), t = s.raise op c ∧ (op = none ↔ c.kind = some .fetch) ∧
      ∀ b, op = some b → s.mem.readAt s.pc.toNat = some b := by
  obtain ⟨hs, heff⟩ := step_next h
  cases heff with
  | fetchFault => exact ⟨none, _, rfl, by simp [Condition.outOfBounds], by simp⟩
  | lookaheadFault op hop => exact ⟨some op, _, rfl, by simp [Condition.outOfBounds], fun _ hb => hop.trans hb⟩
  | operandFault m hop => exact ⟨some m.row.opcode, _, rfl, by simp [Condition.outOfBounds], fun _ hb => hop.trans hb⟩
  | unknown => simp at ht
  | instr i _ hbytes _ _ hexec =>
    obtain ⟨t', ht', heffect⟩ := exec_effect i s
    obtain rfl : t' = t := Host.Outcome.next.inj (ht'.symm.trans hexec)
    obtain ⟨c, hraise, hkind⟩ := heffect.eq_raise_of_faulted hs ht
    have hop : s.mem.readAt s.pc.toNat = some i.opcode := (BytesAt.cons.mp hbytes).1
    exact ⟨some i.opcode, c, hraise, by simp [hkind], fun _ hb => hop.trans hb⟩

/-- Settles O11: the record is the one `State.raise` writes beside the kept `pc`. -/
theorem faultsArePrecise : Obligations.FaultsArePrecise := by
  intro s t h ht
  obtain ⟨op, c, rfl, hfetch, hop⟩ := step_eq_raise_of_faulted h ht
  exact ⟨_, rfl, rfl, hfetch, hop⟩

end Sys2Proof.Machine
end

section
/-! Decoding is the inverse of encoding (`30_encoding.md` R81, R87, R88), and what that gives for a step: the fetched
bytes begin with the encoding at `pc`, so the step runs the instruction they encode (`40_fetch_decode.md` R113). -/

namespace Sys2Proof

/-- The decoder answers by looking up the opcode byte and then reading the row's operands. -/
theorem decode_cons_eq_ok {ext : Bool} {op : Byte} {bs rest : List Byte} {i : Instr} :
    decode ext (op :: bs) = .ok (i, rest) ↔
      ∃ m, Mnemonic.ofOpcode ext op = some m ∧ m.parse bs = .ok (i, rest) := by
  cases h : Mnemonic.ofOpcode ext op <;> simp [decode, h]

/-- Settles O2: the lookup finds exactly the rows of the opcode byte, and a row reads exactly the operand bytes of its own
instructions. -/
theorem decodeIsInverseOfEncode : Obligations.DecodeIsInverseOfEncode := by
  intro ext bytes rest i
  cases bytes with
  | nil => simp [decode, encode]
  | cons op bs =>
    rw [decode_cons_eq_ok, encode, List.cons_append, List.cons.injEq]
    constructor
    · rintro ⟨m, hm, hparse⟩
      obtain ⟨rfl, hext⟩ := Mnemonic.ofOpcode_eq_some.mp hm
      obtain ⟨rfl, rfl⟩ := Mnemonic.parse_eq_ok.mp hparse
      exact ⟨⟨rfl, rfl⟩, hext⟩
    · rintro ⟨⟨rfl, rfl⟩, hext⟩
      exact ⟨i.mnemonic, Mnemonic.ofOpcode_eq_some.mpr ⟨rfl, hext⟩, Mnemonic.parse_eq_ok.mpr ⟨rfl, rfl⟩⟩

/-- Settles O1: the decoder evaluated on each byte sequence. -/
theorem specWordsDecode : Obligations.SpecWordsDecode := by
  unfold Obligations.SpecWordsDecode
  decide

/-- An opcode byte that the lookup does not find is answered unknown, whatever follows (`30_encoding.md` R89). -/
theorem decode_of_ofOpcode_none {ext : Bool} {op : Byte} (h : Mnemonic.ofOpcode ext op = none) (bs : List Byte) :
    decode ext (op :: bs) = .error (.unknownOpcode op) := by
  simp [decode, h]

/-- The opcode bytes of the base set (`30_encoding.md` R85). -/
abbrev baseOpcodes : List Byte := [0x01, 0x82, 0x47, 0xA0, 0xA2, 0x45, 0x46, 0x50, 0x11, 0xA7, 0x54, 0x55, 0x56]

/-- The opcode bytes of the optional set (`30_encoding.md` R86). -/
abbrev optionalOpcodes : List Byte := [0xA8, 0xAA, 0xAB, 0x69, 0xAC, 0xAD, 0xA4]

/-- Each row's opcode byte is in the list of the row's set. -/
theorem Mnemonic.row_opcode_mem (m : Mnemonic) :
    m.row.opcode ∈ baseOpcodes ∨ (m.row.optional = true ∧ m.row.opcode ∈ optionalOpcodes) := by
  cases m <;> decide

/-- A byte outside the rows that are switched on has no row. -/
theorem Mnemonic.ofOpcode_eq_none_of_notMem {ext : Bool} {op : Byte} (hbase : op ∉ baseOpcodes)
    (hopt : ext = false ∨ op ∉ optionalOpcodes) : Mnemonic.ofOpcode ext op = none := by
  rw [Mnemonic.ofOpcode_eq_none]
  rintro m rfl
  rcases m.row_opcode_mem with hmem | ⟨hoptional, hmem⟩
  · exact absurd hmem hbase
  · exact ⟨hoptional, hopt.resolve_right fun hnot => hnot hmem⟩

end Sys2Proof

namespace Sys2Proof.Machine

/-- Bytes that exist in Memory end at or below 256. -/
theorem BytesAt.add_length_le {m : Memory} {t : Nat} {b : Byte} {bs : List Byte} (h : BytesAt m t (b :: bs)) :
    t + (b :: bs).length ≤ 256 := by
  have hlast := h bs.length _ (List.getElem?_eq_getElem (by simp))
  have hle := Memory.le_of_readAt hlast
  rw [List.length_cons]
  omega

/-- Of two byte lists at one address the longer begins with the shorter. -/
theorem BytesAt.isPrefix {m : Memory} {t : Nat} {bs cs : List Byte} (hbs : BytesAt m t bs) (hcs : BytesAt m t cs)
    (hlen : bs.length ≤ cs.length) : bs <+: cs := by
  rw [List.prefix_iff_getElem?]
  intro k hk
  have hb := hbs k _ (List.getElem?_eq_getElem hk)
  have hc := hcs k _ (List.getElem?_eq_getElem (hk.trans_le hlen))
  rw [List.getElem?_eq_getElem (hk.trans_le hlen), ← hc, hb]

/-- The fetched bytes begin with the encoding that stands at `pc` (`40_fetch_decode.md` R102). -/
theorem encode_isPrefix_fetchBytes {s : State} {i : Instr} (h : BytesAt s.mem s.pc.toNat (encode i)) :
    encode i <+: s.fetchBytes i.opcode := by
  have hop : s.mem.readAt s.pc.toNat = some i.opcode := (BytesAt.cons.mp h).1
  have hend : s.pc.toNat + (encode i).length ≤ 256 := BytesAt.add_length_le h
  obtain ⟨hlen, -, hmax⟩ := Sys2Proof.Laws.EncodedLength.of_row i
  refine h.isPrefix (fetchBytes_at hop) ?_
  rw [fetchBytes_length s _ (Memory.le_of_readAt hop)]
  omega

/-- Settles O3: by O2 the decoder answers the instruction whose encoding the fetched bytes begin with. -/
theorem stepRunsTheDecodedInstruction : Obligations.StepRunsTheDecodedInstruction := by
  intro s i hr hext hbytes hl
  have hop : s.mem.readAt s.pc.toNat = some i.opcode := hbytes 0 _ rfl
  obtain ⟨rest, hrest⟩ := encode_isPrefix_fetchBytes hbytes
  have hdecode : decode s.cfg.extAluOpcodes (s.fetchBytes i.opcode) = .ok (i, rest) :=
    (decodeIsInverseOfEncode _ _ _ _).mpr ⟨hrest.symm, hext⟩
  rw [step_of_fetch hr hop hl, hdecode]

/-- Settles O4: the range check stops the fetch. -/
theorem fetchAbove255Faults : Obligations.FetchAbove255Faults :=
  fun _ hr hpc => step_of_fetch_error hr (fetch_range_fault hpc)

/-- Settles O7: the lookup finds no row for the byte, so the decoder answers it unknown. -/
theorem unknownOpcodeHaltsCleanly : Obligations.UnknownOpcodeHaltsCleanly := by
  intro s op hr hop hl hbase hopt
  have hnone : Mnemonic.ofOpcode s.cfg.extAluOpcodes op = none := Mnemonic.ofOpcode_eq_none_of_notMem hbase hopt
  rw [step_of_fetch hr hop hl, State.fetchBytes, decode_of_ofOpcode_none hnone]
  rfl

/-- Settles O29: at 255 the policy alone decides between the decoded HLT and the lookahead fault. -/
theorem hltHalts : Obligations.HltHalts := by
  refine ⟨rfl, exec_hlt, fun s hr hpc hbyte => ?_⟩
  have hop : s.mem.readAt s.pc.toNat = some 0x01 := by
    rw [Memory.readAt_of_le _ hpc.le, hpc]
    exact congrArg some hbyte
  have hbytes : BytesAt s.mem s.pc.toNat (encode .hlt) := BytesAt.cons.mpr ⟨hop, BytesAt.nil _ _⟩
  cases hl : s.cfg.lookaheadOob with
  | inert =>
    have hstep : step s = exec .hlt s :=
      stepRunsTheDecodedInstruction s .hlt hr (fun h => absurd h (by decide)) hbytes (.inl hl)
    exact hstep.trans (exec_hlt s)
  | fault => exact step_of_fetch_error hr (fetch_lookahead_fault hop hl (by omega))

end Sys2Proof.Machine
end

section
/-! What a whole step changes. A step either writes `run` and `stop` alone or is one `Effect` of the instruction at `pc`, so
each rule about every step is a rule about `Effect`. -/

namespace Sys2Proof.Machine

/-- An instruction answers the one state that `Effect` describes. -/
theorem Effect.of_exec {s t : State} {i : Instr} (h : exec i s = .next t) : Effect s i t := by
  obtain ⟨t', ht', heff⟩ := exec_effect i s
  obtain rfl : t' = t := Host.Outcome.next.inj (ht'.symm.trans h)
  exact heff

/-- Settles O9. -/
theorem terminalStatesHaveNoStep : Obligations.TerminalStatesHaveNoStep := by
  rintro s (h | h) <;> simp [step, h]

/-- A RUNNING core always has a next state: a fetch or a decode that stops it gives one, and so does every instruction. -/
theorem exists_next_of_running {s : State} (hr : s.run = .running) : ∃ t, step s = .next t := by
  cases hf : fetchInstr s with
  | error t => exact ⟨t, by simp [step, hr, hf]⟩
  | ok i =>
    obtain ⟨t, ht, -⟩ := exec_effect i s
    exact ⟨t, by simp [step, hr, hf, ht]⟩

/-- Settles O10: the other direction is the run state that `step_next` reports. -/
theorem exactlyRunningStatesStep : Obligations.ExactlyRunningStatesStep :=
  fun _ => ⟨fun ⟨_, h⟩ => (step_next h).1, exists_next_of_running⟩

/-- The instruction `i` passes fetch and decode at `pc` and reaches its handler (`40_fetch_decode.md` R107). -/
structure Dispatched (s : State) (i : Instr) : Prop where
  bytes : BytesAt s.mem s.pc.toNat (encode i)
  length_le : s.pc.toNat + i.length ≤ 256
  enabled : i.optional = true → s.cfg.extAluOpcodes = true

theorem Dispatched.readAt_pc {s : State} {i : Instr} (h : Dispatched s i) : s.mem.readAt s.pc.toNat = some i.opcode :=
  (BytesAt.cons.mp h.bytes).1

/-- A step that runs no instruction writes the run state and the stop record alone. -/
theorem step_cases {s t : State} (h : step s = .next t) :
    (∃ (r : Run) (w : Option StopRecord), t = { s with run := r, stop := w }) ∨
    ∃ i, Dispatched s i ∧ Effect s i t := by
  obtain ⟨-, heff⟩ := step_next h
  cases heff with
  | instr i _ hbytes hlen hext hexec => exact .inr ⟨i, ⟨hbytes, hlen, hext⟩, .of_exec hexec⟩
  | _ => exact .inl ⟨_, _, rfl⟩

theorem Effect.cfg_eq {s t : State} {i : Instr} (h : Effect s i t) : t.cfg = s.cfg := by
  cases h <;> rfl

/-- Settles O18. -/
theorem noStepChangesTheParameters : Obligations.NoStepChangesTheParameters := by
  intro s t h
  rcases step_cases h with ⟨r, w, rfl⟩ | ⟨i, -, heff⟩
  · rfl
  · exact heff.cfg_eq

theorem cmpFlag_ne_unset (x y : Byte) : cmpFlag x y ≠ .unset := by
  unfold cmpFlag
  split
  · decide
  · split <;> decide

/-- R39: an instruction that changes the flag is a CMP, and its flag is that of a comparison. -/
theorem Effect.flag_cases {s t : State} {i : Instr} (h : Effect s i t) :
    t.flag = s.flag ∨ ((∃ a b, i = .cmp a b) ∧ t.flag ≠ .unset) := by
  cases h with
  | cmp ra rb => exact .inr ⟨⟨_, _, rfl⟩, cmpFlag_ne_unset _ _⟩
  | _ => exact .inl rfl

/-- Settles O19. -/
theorem onlyCmpWritesTheFlag : Obligations.OnlyCmpWritesTheFlag := by
  intro s t h hne
  rcases step_cases h with ⟨r, w, rfl⟩ | ⟨i, hi, heff⟩
  · exact absurd rfl hne
  · obtain ⟨⟨a, b, rfl⟩, hflag⟩ := heff.flag_cases.resolve_left hne
    exact ⟨hi.readAt_pc, hflag⟩

/-- R42: an instruction that changes `out` is a PRN of a register. -/
theorem Effect.out_cases {s t : State} {i : Instr} (h : Effect s i t) :
    t.out = s.out ∨ ∃ r : Fin 8, i = .prn (regByte r) ∧ t.out = s.out ++ [s.reg r] := by
  cases h with
  | prn ra => exact .inr ⟨ra, rfl, rfl⟩
  | _ => exact .inl rfl

/-- Settles O21: the register's byte is the one after PRN's opcode. -/
theorem onlyPrnEmits : Obligations.OnlyPrnEmits := by
  intro s t h
  rcases step_cases h with ⟨r, w, rfl⟩ | ⟨i, hi, heff⟩
  · exact .inl rfl
  · rcases heff.out_cases with hkeep | ⟨r, rfl, hout⟩
    · exact .inl hkeep
    · exact .inr ⟨hi.readAt_pc, r, hi.bytes 1 _ rfl, hout⟩

/-- R62: an instruction that changes Memory is a PUSH or a CALL, and it writes the one cell below SP. -/
theorem Effect.mem_cases {s t : State} {i : Instr} (h : Effect s i t) :
    t.mem = s.mem ∨ (∃ v, t.mem = s.mem.write (spDown s.sp) v) ∧ ∃ a, i = .push a ∨ i = .call a := by
  cases h with
  | push ra v => exact .inr ⟨⟨v, rfl⟩, _, .inl rfl⟩
  | call ra v => exact .inr ⟨⟨v, rfl⟩, _, .inr rfl⟩
  | _ => exact .inl rfl

/-- Settles O22: every cell but the written one reads as before. -/
theorem onlyPushAndCallWriteMemory : Obligations.OnlyPushAndCallWriteMemory := by
  intro s t a h hne
  rcases step_cases h with ⟨r, w, rfl⟩ | ⟨i, hi, heff⟩
  · exact absurd rfl hne
  · rcases heff.mem_cases with hkeep | ⟨⟨v, hwrite⟩, b, hinstr⟩
    · exact absurd (by rw [hkeep]) hne
    · refine ⟨?cell, ?opcode⟩
      case cell =>
        by_contra ha
        exact hne (by rw [hwrite, Memory.read_write_other _ v ha])
      case opcode =>
        rcases hinstr with rfl | rfl
        · exact .inl hi.readAt_pc
        · exact .inr hi.readAt_pc

/-- A register that differs after a write of `x[ra]` is `x[ra]`. -/
theorem State.eq_of_setReg_reg_ne {s : State} {ra r : Fin 8} {v : Byte} (h : (s.setReg ra v).reg r ≠ s.reg r) :
    r = ra := by
  by_contra hne
  exact h (by simp [hne])

/-- Settles O23: the registers each effect writes stand in its constructor. -/
theorem registersAreWrittenOnlyAsTabled : Obligations.RegistersAreWrittenOnlyAsTabled := by
  intro i s t r h hne
  cases Effect.of_exec h with
  | ldi ra | not ra => exact congrArg regByte (State.eq_of_setReg_reg_ne hne).symm
  | aluTwo mk ra rb v hmk =>
    have hra : regByte ra = regByte r := congrArg regByte (State.eq_of_setReg_reg_ne hne).symm
    fin_cases hmk <;> exact hra
  | pop ra v w =>
    by_cases hr : r = 7
    · exact .inr hr
    · refine .inl (congrArg regByte (State.eq_of_setReg_reg_ne (s := s) (v := v) ?_).symm)
      simpa [hr] using hne
  | push | call | ret => exact State.eq_of_setReg_reg_ne hne
  | _ => exact absurd rfl hne

end Sys2Proof.Machine
end

section
/-! How a step ends (`60_exceptions.md` R210 to R216): it completes, halts, or raises one condition of the table of causes.
What halts, where each
condition is raised and the stop record's part of the invariant are read off that one list. -/

namespace Sys2Proof.Machine

/-- The table of causes (`60_exceptions.md` R210): the conditions that a step which has fetched the opcode `op` raises, each
with where it is raised. -/
inductive Raises (s : State) (op : Byte) : Condition → Prop
  | lookahead : Raises s op (.outOfBounds .lookahead 256)
  | operand : Raises s op (.outOfBounds .operand 256)
  | register (v : Nat) (hv : 8 ≤ v) (hv' : v ≤ 255) : Raises s op (.outOfBounds .register v)
  | returnAddress (hop : op = 0x50) (hpc : s.pc.toNat = 254) : Raises s op (.outOfBounds .returnAddress 256)
  | modZero (hop : op = 0xA4) (hext : s.cfg.extAluOpcodes = true) (rb : Fin 8)
      (hrb : s.mem.readAt (s.pc.toNat + 2) = some (regByte rb)) (hzero : (s.reg rb).toNat = 0) :
      Raises s op (.plain .divideOrModuloByZero)
  | flagUnset (hop : op = 0x55 ∨ op = 0x56) (hf : s.flag = .unset) (hp : s.cfg.unsetFlagPolicy = .fault) :
      Raises s op (.plain .flagUnset)

/-- The ways a step ends. -/
inductive StepEnd (s : State) : State → Prop
  | completes (t : State) (hrun : t.run = .running) (hstop : t.stop = s.stop) : StepEnd s t
  | hlt (hop : s.mem.readAt s.pc.toNat = some 0x01) : StepEnd s (s.halt 0x01 .hlt)
  | unknown (op : Byte) (hop : s.mem.readAt s.pc.toNat = some op) (hne : op ≠ 0x01) :
      StepEnd s (s.halt op .unknownOpcode)
  | fetchFault (hpc : 255 < s.pc.toNat) : StepEnd s (s.raise none (.outOfBounds .fetch s.pc.toNat))
  | raised (op : Byte) (c : Condition) (hop : s.mem.readAt s.pc.toNat = some op) (hc : Raises s op c) :
      StepEnd s (s.raise (some op) c)

/-- An instruction's own conditions stand in the table of causes. -/
theorem Effect.stepEnd {s t : State} {i : Instr} (h : Effect s i t) (hr : s.run = .running) (hi : Dispatched s i) :
    StepEnd s t := by
  have hop := hi.readAt_pc
  cases h with
  | hlt => exact .hlt hop
  | badRegister _ v hv hv' => exact .raised _ _ hop (.register v hv hv')
  | modZero ra rb hzero => exact .raised _ _ hop (.modZero rfl (hi.enabled rfl) rb (hi.bytes 2 _ rfl) hzero)
  | callFault ra hpc =>
    have hlen : s.pc.toNat + 2 ≤ 256 := hi.length_le
    have hret : s.pc.toNat + 2 = 256 := by omega
    rw [hret]
    exact .raised _ _ hop (.returnAddress rfl (by omega))
  | flagUnset mk ra hmk hf hp =>
    refine .raised _ _ hop (.flagUnset ?_ hf hp)
    rcases hmk with rfl | rfl
    · exact .inl rfl
    · exact .inr rfl
  | _ => exact .completes _ hr rfl

/-- Every step ends in one of these ways. -/
theorem step_end {s t : State} (h : step s = .next t) : StepEnd s t := by
  obtain ⟨hr, heff⟩ := step_next h
  cases heff with
  | fetchFault hpc => exact .fetchFault hpc
  | lookaheadFault op hop => exact .raised op _ hop .lookahead
  | operandFault m hop => exact .raised _ _ hop .operand
  | unknown op hop hm =>
    refine .unknown op hop ?_
    rintro rfl
    simpa [Mnemonic.row] using Mnemonic.ofOpcode_eq_none.mp hm .hlt rfl
  | instr i _ hbytes hlen hext hexec => exact (Effect.of_exec hexec).stepEnd hr ⟨hbytes, hlen, hext⟩

/-- Settles O12: the two halting ends. -/
theorem haltsWriteOnlyRunAndStop : Obligations.HaltsWriteOnlyRunAndStop := by
  intro s t h ht
  cases step_end h with
  | completes _ hrun => simp [hrun] at ht
  | hlt hop => exact ⟨0x01, hop, rfl⟩
  | unknown op hop hne => exact ⟨op, hop, by rw [if_neg hne, State.halt]⟩
  | fetchFault | raised => simp at ht

/-- Settles O13: each condition's row of the table of causes. -/
theorem conditionsAreRaisedOnlyWhereTabled : Obligations.ConditionsAreRaisedOnlyWhereTabled := by
  intro s t r hs h hr
  cases step_end h with
  | completes _ _ hstop => simp [hstop, hs] at hr
  | hlt | unknown | fetchFault =>
    cases hr
    simp [Condition.outOfBounds]
  | raised op c hop hc =>
    cases hr
    cases hc with
    | lookahead | operand | register => simp [Condition.outOfBounds]
    | returnAddress hop hpc => simp [Condition.outOfBounds, hop, hpc]
    | modZero hop hext rb hrb hzero => simpa [Condition.plain, hop, hext] using ⟨rb, hrb, hzero⟩
    | flagUnset hop hf hp => simpa [Condition.plain, hf, hp] using hop

/-! ## The invariant, clause by clause -/

/-- Memory: at most one canonical write. -/
theorem step_mem_wf {s t : State} (hmem : s.mem.wf) (h : step s = .next t) : t.mem.wf := by
  rcases step_cases h with ⟨r, w, rfl⟩ | ⟨i, -, heff⟩
  · exact hmem
  · rcases heff.mem_cases with hkeep | ⟨⟨v, hwrite⟩, -⟩
    · exact hkeep ▸ hmem
    · exact hwrite ▸ Memory.wf_write hmem _ v

theorem State.advance_pc_toNat_le {s : State} {n : Nat} (h : s.pc.toNat + n ≤ 256) : (s.advance n).pc.toNat ≤ 256 := by
  simp
  omega

theorem State.jump_pc_toNat_le (s : State) (b : Byte) : (s.jump b).pc.toNat ≤ 256 := by
  rw [State.jump_pc_toNat]
  have := b.isLt
  omega

/-- An instruction keeps `pc`, jumps to a byte address, or advances past its own last byte (`40_fetch_decode.md` R110). -/
theorem Effect.pc_toNat_le {s t : State} {i : Instr} (h : Effect s i t) (hlen : s.pc.toNat + i.length ≤ 256) :
    t.pc.toNat ≤ 256 := by
  cases h with
  | ldi | prn | not | cmp | push | pop => exact State.advance_pc_toNat_le hlen
  | aluTwo mk ra rb v hmk => fin_cases hmk <;> exact State.advance_pc_toNat_le hlen
  | notTaken mk ra hmk => rcases hmk with rfl | rfl <;> exact State.advance_pc_toNat_le hlen
  | call | jmp | taken => exact State.jump_pc_toNat_le _ _
  | ret v w => exact State.jump_pc_toNat_le s v
  | hlt | modZero | callFault | flagUnset | badRegister => exact le_trans (Nat.le_add_right _ _) hlen

theorem step_pc_toNat_le {s t : State} (hpc : s.pc.toNat ≤ 256) (h : step s = .next t) : t.pc.toNat ≤ 256 := by
  rcases step_cases h with ⟨r, w, rfl⟩ | ⟨i, hi, heff⟩
  · exact hpc
  · exact heff.pc_toNat_le hi.length_le

theorem State.stop_eq_none_of_running {s : State} (hstop : s.stopSound = true) (hr : s.run = .running) :
    s.stop = none := by
  cases hs : s.stop with
  | none => rfl
  | some r => simp [State.stopSound, hs, hr] at hstop

/-- 256 is the one `pc` of the invariant at which no byte can be read. -/
theorem Memory.ne_256_of_readAt {m : Memory} {t : Nat} {b : Byte} (h : m.readAt t = some b) : t ≠ 256 := by
  have := Memory.le_of_readAt h
  omega

/-- A condition of the table of causes leaves a sound record. -/
theorem Raises.stopSound {s : State} {op : Byte} {c : Condition} (hc : Raises s op c) (hpc : s.pc.toNat ≠ 256) :
    (s.raise (some op) c).stopSound = true := by
  cases hc with
  | register v hv hv' =>
    simp [State.stopSound, StopRecord.sound, Condition.outOfBounds, OobKind.admits, hpc, hv, hv']
  | lookahead | operand | returnAddress =>
    simp [State.stopSound, StopRecord.sound, Condition.outOfBounds, OobKind.admits, hpc]
  | modZero | flagUnset => simp [State.stopSound, StopRecord.sound, Condition.plain, hpc]

/-- Every end of a step agrees with its run state and its `pc` (`10_state.md` R41). -/
theorem StepEnd.stopSound {s t : State} (h : StepEnd s t) (hpc : s.pc.toNat ≤ 256) (hs : s.stop = none) :
    t.stopSound = true := by
  cases h with
  | completes _ hrun hstop => simp [State.stopSound, hstop, hs, hrun]
  | hlt hop | unknown op hop => simp [State.stopSound, StopRecord.sound, Memory.ne_256_of_readAt hop]
  | fetchFault hgt =>
    have heq : s.pc.toNat = 256 := by omega
    simp [State.stopSound, StopRecord.sound, Condition.outOfBounds, OobKind.admits, heq]
  | raised op c hop hc => exact hc.stopSound (Memory.ne_256_of_readAt hop)

/-- Settles O16: clause by clause; a step starts while RUNNING, so the invariant says that there is no record yet. -/
theorem everyStepKeepsTheInvariant : Obligations.EveryStepKeepsTheInvariant := by
  rintro s t ⟨hmem, hpc, hstop⟩ h
  have hs : s.stop = none := State.stop_eq_none_of_running hstop (step_next h).1
  exact ⟨step_mem_wf hmem h, step_pc_toNat_le hpc h, (step_end h).stopSound hpc hs⟩

/-- A run of `n + 1` steps that answers a state is a step and a run of `n` steps from its next state. -/
theorem run_succ_eq_next {M : Host.Core} {n : Nat} {s t : M.State} (h : M.run (n + 1) s = .next t) :
    ∃ u, M.step s = .next u ∧ M.run n u = .next t := by
  rw [Host.Core.run] at h
  split at h
  next u hu => exact ⟨u, hu, h⟩
  next => cases h
  next => cases h

/-- What every step keeps, every run keeps. -/
theorem run_keeps {P : State → Prop} (hstep : ∀ s t, P s → step s = .next t → P t) (n : Nat) (s t : State) (hs : P s)
    (h : Host.Core.run Sys2Proof.core n s = .next t) : P t := by
  induction n generalizing s with
  | zero => exact Host.Outcome.next.inj h ▸ hs
  | succ n ih =>
    obtain ⟨u, hu, hrest⟩ := run_succ_eq_next h
    exact ih u (hstep s u hs hu) hrest

/-- Settles O17. -/
theorem everyRunKeepsTheInvariant : Obligations.EveryRunKeepsTheInvariant :=
  run_keeps everyStepKeepsTheInvariant

end Sys2Proof.Machine
end

section
/-! Canonical memories (`20_memory.md` R60), the preload and the trace port (`70_reset_and_hazards.md` R241, R246;
`00_scope.md` R17), and the end of a run (`70_reset_and_hazards.md` R254). -/

namespace Sys2Proof.Machine

/-- A canonical memory lists exactly the cells that read as something other than the reset contents. -/
theorem Memory.mem_iff_lookup {m : Memory} (hm : m.wf) (c : Host.Cell) :
    c ∈ m ↔ m.lookup c.1 = c.2 ∧ c.2 ≠ Memory.resetByte := by
  induction m with
  | nil =>
    simp only [List.not_mem_nil, Memory.lookup, false_iff]
    rintro ⟨h, hne⟩
    exact hne h.symm
  | cons d m ih =>
    obtain ⟨hbelow, -, hne, hm'⟩ := Memory.wf_cons.mp hm
    rw [List.mem_cons, ih hm', Memory.lookup]
    by_cases hc : c.1 = d.1
    · have hreset : Memory.lookup m c.1 = Memory.resetByte := Memory.lookup_below fun e he => hc ▸ hbelow e he
      rw [if_pos hc, hreset]
      constructor
      · rintro (rfl | ⟨h, hne'⟩)
        · exact ⟨rfl, hne⟩
        · exact absurd h.symm hne'
      · rintro ⟨h, -⟩
        exact .inl (Prod.ext hc h.symm)
    · rw [if_neg hc]
      exact or_iff_right fun h => hc (congrArg Prod.fst h)

/-- Canonical memories that read the same list the same cells. -/
theorem Memory.subset_of_read_eq {m n : Memory} (hm : m.wf) (hn : n.wf) (h : ∀ a : Byte, m.read a = n.read a) :
    m ⊆ n := by
  intro c hc
  have hle : c.1 ≤ 255 := (hm.2 c hc).1
  have hread : Memory.lookup m c.1 = Memory.lookup n c.1 := by
    have haddr : (BitVec.ofNat 8 c.1).toNat = c.1 := by
      rw [BitVec.toNat_ofNat, Nat.mod_eq_of_lt (by omega)]
    have hc := h (BitVec.ofNat 8 c.1)
    rwa [Memory.read, Memory.read, haddr] at hc
  rw [Memory.mem_iff_lookup hn, ← hread]
  exact (Memory.mem_iff_lookup hm c).mp hc

/-- Settles O24: two lists sorted by address with the same cells are the same list. -/
theorem canonicalMemoryIsDeterminedByItsBytes : Obligations.CanonicalMemoryIsDeterminedByItsBytes := by
  intro m n hm hn h
  have hnodup : ∀ {l : Memory}, l.wf → l.Nodup := fun hl => hl.1.imp fun hlt heq => hlt.ne (congrArg Prod.fst heq)
  have hperm : List.Perm m n := (List.perm_ext_iff_of_nodup (hnodup hm) (hnodup hn)).mpr fun _ =>
    ⟨fun hc => Memory.subset_of_read_eq hm hn h hc, fun hc => Memory.subset_of_read_eq hn hm (fun a => (h a).symm) hc⟩
  exact hperm.eq_of_pairwise (fun _ _ _ _ hlt hgt => absurd hgt hlt.not_gt) hm.1 hn.1

/-- Settles O27. -/
theorem bootRefusesMissingAndOversizedImages : Obligations.BootRefusesMissingAndOversizedImages := by
  refine fun cfg => ⟨rfl, fun image hlen => ?_⟩
  rw [boot, if_neg (by omega), if_pos hlen]

/-- Settles O14. -/
theorem resetMeetsTheInvariant : Obligations.ResetMeetsTheInvariant :=
  ⟨State.reset_mem_wf, by decide, rfl⟩

/-- Settles O15: an accepted image ends within Memory, and the rest is the reset state. -/
theorem bootMeetsTheInvariant : Obligations.BootMeetsTheInvariant := by
  intro cfg image s h
  by_cases hlen : 1 ≤ image.length ∧ image.length ≤ 256
  · rw [boot_of_length cfg hlen.1 hlen.2] at h
    obtain rfl := Except.ok.inj h
    obtain ⟨-, hpc, hstop⟩ := resetMeetsTheInvariant
    exact ⟨Memory.wf_load image 0 [] Memory.wf_nil (by omega), hpc, hstop⟩
  · rw [boot] at h
    split_ifs at h
    omega

/-- Settles O28: a byte that exists is shown in place of the drawn one. -/
theorem traceShowsTheNextFetch : Obligations.TraceShowsTheNextFetch := by
  intro draw s op a b hop ha hb
  simp [State.trace, hop, ha, hb]

theorem State.terminal_eq_true {s : State} : s.terminal = true ↔ s.run ≠ .running := by
  simp [State.terminal]

/-- A terminal state is its own end, whatever the fuel. -/
theorem endOfRun_of_terminal {s : State} (h : s.terminal = true) (n : Nat) : endOfRun n s = some s := by
  cases n <;> simp [endOfRun, h]

/-- The end found from a terminal state is that state, with any other fuel too. -/
theorem endOfRun_eq_some_of_terminal {n : Nat} {s t : State} (hs : s.terminal = true) (h : endOfRun n s = some t)
    (m : Nat) : endOfRun m s = some t ∧ t.terminal = true := by
  rw [endOfRun_of_terminal hs, Option.some.injEq] at h
  exact h ▸ ⟨endOfRun_of_terminal hs m, hs⟩

theorem endOfRun_zero_of_not_terminal {s : State} (h : ¬s.terminal = true) : endOfRun 0 s = none := by
  simp [endOfRun, h]

/-- From a state that is not terminal a run goes on with its one next state. -/
theorem endOfRun_succ_of_step {s t : State} (h : ¬s.terminal = true) (hstep : step s = .next t) (n : Nat) :
    endOfRun (n + 1) s = endOfRun n t := by
  simp [endOfRun, h, hstep]

/-- Settles O25, by induction on the smaller fuel. -/
theorem endOfRunDoesNotDependOnFuel : Obligations.EndOfRunDoesNotDependOnFuel := by
  intro n m s t hnm h
  induction n generalizing m s with
  | zero =>
    by_cases hs : s.terminal = true
    · exact endOfRun_eq_some_of_terminal hs h m
    · simp [endOfRun_zero_of_not_terminal hs] at h
  | succ n ih =>
    by_cases hs : s.terminal = true
    · exact endOfRun_eq_some_of_terminal hs h m
    · obtain ⟨m, rfl⟩ : ∃ k, m = k + 1 := ⟨m - 1, by omega⟩
      obtain ⟨u, hu⟩ := exists_next_of_running (not_not.mp fun hr => hs (State.terminal_eq_true.mpr hr))
      rw [endOfRun_succ_of_step hs hu] at h ⊢
      exact ih m u (Nat.le_of_succ_le_succ hnm) h

end Sys2Proof.Machine
end

section
/-! Pairs of instructions on the stack (`43_stack_call.md` R187; `10_state.md` R32, R33). -/

namespace Sys2Proof.Machine

/-- After the push of a byte the cell at SP holds that byte. -/
theorem push_read_sp {s : State} (hmem : s.mem.wf) (v : Byte) :
    let t := (s.setReg 7 (spDown (s.reg 7))).writeMem (spDown (s.reg 7)) v
    t.mem.read (t.reg 7) = v := by
  obtain ⟨hsp, hcell, -, -⟩ := push_frame hmem v
  exact (congrArg _ hsp).trans hcell

/-- Settles O44: POP reads the pushed byte back before it undoes the step of SP; for R7 that byte is the decremented SP. -/
theorem pushThenPopRestoresEveryRegister : Obligations.PushThenPopRestoresEveryRegister := by
  intro s r hmem
  refine ⟨_, _, exec_push s r, exec_pop _ r, fun q => ?_⟩
  have hread := push_read_sp hmem (if r = 7 then spDown (s.reg 7) else s.reg r)
  simp only [State.advance_reg, State.advance_mem, hread]
  by_cases hq : q = 7
  · by_cases hr : r = 7 <;> simp [hq, hr]
  · by_cases hqr : q = r
    · subst hqr
      simp [hq]
    · simp [hq, hqr]

/-- Settles O45: RET jumps to the byte CALL stored and undoes CALL's step of SP. -/
theorem callThenRetReturnsAfterTheCall : Obligations.CallThenRetReturnsAfterTheCall := by
  intro s r hmem hpc
  refine ⟨_, exec_call s r hpc, fun u husp hucell => ⟨_, exec_ret u, ?pc, ?sp⟩⟩
  case pc =>
    have hread : u.mem.read (u.reg 7) = BitVec.ofNat 8 (s.pc.toNat + 2) := hucell.trans (push_read_sp hmem _)
    rw [State.setReg_pc, State.jump_pc_toNat, hread, BitVec.toNat_ofNat, Nat.mod_eq_of_lt (by omega)]
  case sp =>
    have hsp : u.reg 7 = spDown (s.reg 7) := husp.trans (by simp)
    simp [hsp]

/-- PUSH in terms of the byte below SP: SP moves there and the register, read after that, is stored there. -/
theorem exec_push_below {s : State} (hmem : s.mem.wf) (r : Fin 8) :
    ∃ t, exec (.push (regByte r)) s = .next t ∧ t.sp = s.reg 7 - 1 ∧
      t.mem.read (s.reg 7 - 1) = (if r = 7 then s.reg 7 - 1 else s.reg r) ∧
      ∀ a : Byte, a ≠ s.reg 7 - 1 → t.mem.read a = s.mem.read a := by
  obtain ⟨hsp, hcell, hother, -⟩ := push_frame hmem (if r = 7 then spDown (s.reg 7) else s.reg r)
  rw [← spDown_eq_sub_one]
  exact ⟨_, exec_push s r, hsp, hcell, hother⟩

/-- Settles O46: the push works from the register that LDI wrote. -/
theorem ldiOfRegister7MovesTheStack : Obligations.LdiOfRegister7MovesTheStack := by
  intro s v r hmem
  obtain ⟨u, hexec, hsp, hcell, hother⟩ := exec_push_below (s := (s.setReg 7 v).advance 3) hmem r
  have hreg : ((s.setReg 7 v).advance 3).reg 7 = v := by simp
  rw [hreg] at hsp hcell hother
  refine ⟨_, u, exec_ldi s 7 v, hexec, hsp, hcell.trans ?_, hother⟩
  by_cases hr : r = 7 <;> simp [hr]

end Sys2Proof.Machine
end

section
/-! The flag is read by JEQ and JNE alone (`10_state.md` R39): two runs from states that differ in the flag are compared. -/

namespace Sys2Proof.Machine

/-- A meaning that does not read the flag: run with another flag value it answers the same next state but for the flag. -/
def FlagBlind (f : State → Result) : Prop :=
  ∀ (s : State) (v : Flag), ∃ t u, f s = .next t ∧ f { s with flag := v } = .next u ∧ { u with flag := t.flag } = t

/-- One register operand: the check does not read the flag. -/
theorem flagBlind_withReg {op a : Byte} {handler : Fin 8 → State → Result} (h : ∀ r, FlagBlind (handler r)) :
    FlagBlind fun s => withReg op a s fun r => handler r s := by
  intro s v
  by_cases ha : 7 < a.toNat
  · exact ⟨_, _, withReg_of_gt op s _ ha, withReg_of_gt op _ _ ha, rfl⟩
  · obtain ⟨r, rfl⟩ := exists_regByte (Nat.le_of_not_lt ha)
    simp only [withReg_regByte]
    exact h r s v

/-- The end of an ALU instruction whose inputs do not depend on the flag. -/
theorem flagBlind_aluFinish (op : Byte) (len : Nat) (ra : Fin 8) (o : State → Except Condition AluOut)
    (ho : ∀ s v, o { s with flag := v } = o s) : FlagBlind fun s => aluFinish op len ra (o s) s := by
  intro s v
  simp only [ho]
  rcases o s with c | ⟨_ | _, _ | _⟩ <;> exact ⟨_, _, rfl, rfl, rfl⟩

theorem flagBlind_aluTwo (sel : AluOp) (op a b : Byte) : FlagBlind (aluTwo sel op a b) :=
  flagBlind_withReg fun ra => flagBlind_withReg fun rb =>
    flagBlind_aluFinish op 3 ra (fun s => aluApply sel (s.reg ra) (s.reg rb)) fun _ _ => rfl

theorem flagBlind_aluOne (sel : AluOp) (op a : Byte) : FlagBlind (aluOne sel op a) :=
  flagBlind_withReg fun ra => flagBlind_aluFinish op 2 ra (fun s => aluApply sel (s.reg ra) 0) fun _ _ => rfl

/-- CALL tests `pc` alone before it pushes. -/
theorem flagBlind_execCall (a : Byte) : FlagBlind (execCall a) := by
  refine flagBlind_withReg fun ra s v => ?_
  by_cases h : s.pc.toNat + 2 > 255
  · simp only [if_pos h]
    exact ⟨_, _, rfl, rfl, rfl⟩
  · simp only [if_neg h]
    exact ⟨_, _, rfl, rfl, rfl⟩

/-- R39: every handler but that of the conditional jumps is built from parts that do not read the flag. -/
theorem flagBlind_exec {i : Instr} (hjeq : ∀ a, i ≠ .jeq a) (hjne : ∀ a, i ≠ .jne a) : FlagBlind (exec i) := by
  cases i with
  | hlt | ret => exact fun _ _ => ⟨_, _, rfl, rfl, rfl⟩
  | ldi | prn | push | pop | jmp => exact flagBlind_withReg fun _ _ _ => ⟨_, _, rfl, rfl, rfl⟩
  | call a => exact flagBlind_execCall a
  | not a => exact flagBlind_aluOne _ _ a
  | add a b | mul a b | cmp a b | and a b | or a b | xor a b | shl a b | shr a b | mod a b =>
    exact flagBlind_aluTwo _ _ a b
  | jeq a => exact absurd rfl (hjeq a)
  | jne a => exact absurd rfl (hjne a)

/-- Settles O20. -/
theorem onlyConditionalJumpsReadTheFlag : Obligations.OnlyConditionalJumpsReadTheFlag :=
  fun _ s v hjeq hjne => flagBlind_exec hjeq hjne s v

end Sys2Proof.Machine
end
